-- ==== Sys2Proof/Word.lean ====
section
/-! DEFINITION. The word, the byte, the 64 lanes of the DATA operand, and the two sequences of state words.
Widths are R7 (WORD_BITS = 32, DATA_LANES = 64) and R22 (4 words for MD5, 5 for SHA-1). -/

namespace Sys2Proof

/-- One byte: a BUF byte, a DATA lane, a digest byte. -/
abbrev Byte := BitVec 8

/-- One 32-bit word: a state word, a message word, the command word, STATUS. -/
abbrev Word := BitVec 32

/-- The data operand of a command: byte lanes DATA[0..63] (R30, R85). -/
abbrev Lanes := Vector Byte 64

/-- The four MD5 words: H[0] = A, H[1] = B, H[2] = C, H[3] = D (R22); also the working variables of R124. -/
structure Md5Words where
  a : Word
  b : Word
  c : Word
  d : Word
  deriving DecidableEq, Repr

/-- The five SHA-1 words: H[0] = A, ..., H[4] = E (R22); also the working variables of R156. -/
structure Sha1Words where
  a : Word
  b : Word
  c : Word
  d : Word
  e : Word
  deriving DecidableEq, Repr

/-- ALG and H together (R20 to R22): H is a sequence of NW(ALG) words, so the algorithm is the constructor and in
MD5 mode there is no H[4]. DEDUCED, safe (log 5). -/
inductive HashWords where
  | md5 (w : Md5Words)
  | sha1 (w : Sha1Words)
  deriving DecidableEq, Repr

end Sys2Proof
end

