-- ==== Sys2Proof/Syntax.lean ====
section
/-! DEFINITION. The commands: one constructor of Instr per row of spec/opcode_table.json, and the names of the
algorithms and of the fault codes. -/

namespace Sys2Proof

/-- The two algorithms (R2, R21). -/
inductive Alg where
  /-- ALG = 0. -/
  | md5
  /-- ALG = 1. -/
  | sha1
  deriving DecidableEq, Repr

/-- The five defined values of the OP field (R81). -/
inductive Op where
  | init
  | update
  | final
  | rdstat
  | rddig
  deriving DecidableEq, Repr

/-- The causes of a fault (R261); the four-bit codes are FaultCode.code. -/
inductive FaultCode where
  /-- Code 1: OP is 0x0 or 0x6..0xF (R262). Raised by the decoder. -/
  | illegalOp
  /-- Code 2: a defined OP with a 1 in a reserved bit (R263). Raised by the decoder. -/
  | reservedBits
  /-- Code 3: UPDATE with COUNT in 65..127 (R264). Raised by the decoder. -/
  | countRange
  /-- Code 4: UPDATE while FIN = 1 (R265). -/
  | updateAfterFinal
  /-- Code 5: FINAL while FIN = 1 (R266). -/
  | finalAfterFinal
  /-- Code 6: RDDIG while FIN = 0 (R267). -/
  | digestNotReady
  deriving DecidableEq, Repr

/-- A decoded command with its operands (R80, R87). UPDATE carries its COUNT field and the 64 lanes presented with
it, of which it reads the first COUNT (R85; log 6). -/
inductive Instr where
  /-- INIT: begin a new computation with `alg` (R240). -/
  | init (alg : Alg)
  /-- UPDATE: absorb the first `count` lanes of `data` (R180). -/
  | update (count : BitVec 7) (data : Lanes)
  /-- FINAL: pad, compress the last block or blocks, finalize (R210). -/
  | final
  /-- RDSTAT: read the status word (R241). -/
  | rdstat
  /-- RDDIG: read the digest (R215). -/
  | rddig
  deriving DecidableEq, Repr

/-- The operation a command performs (R81). -/
def Instr.op : Instr → Op
  | .init _ => .init
  | .update _ _ => .update
  | .final => .final
  | .rdstat => .rdstat
  | .rddig => .rddig

end Sys2Proof
end

