-- ==== Sys2Proof/WellFormed.lean ====
section
/-! DEFINITION. Which decoded commands the encoding has: COUNT is 0..64 (R83); every other operand is of a type that
holds its legal values only. -/

namespace Sys2Proof

/-- COUNT values 0..64 are legal; 65..127 are fault 3 (R83, R264). -/
def Instr.wellFormed : Instr → Bool
  | .init _ => true
  | .update count _ => decide (count.toNat ≤ 64)
  | .final => true
  | .rdstat => true
  | .rddig => true

end Sys2Proof
end

