-- ==== Sys2Proof/Decode.lean ====
section
/-! DEFINITION. The command decoder of R88, total on every 32-bit word, and after it the encoder of R87. -/

namespace Sys2Proof

/-! ## Fields of the command word (R80) -/

/-- OP = cmd[3:0] (R81). -/
def opField (cmd : Word) : BitVec 4 := cmd.extractLsb' 0 4

/-- ALG = cmd[4] (R82). -/
def algField (cmd : Word) : BitVec 1 := cmd.extractLsb' 4 1

/-- COUNT = cmd[14:8] (R83). -/
def countField (cmd : Word) : BitVec 7 := cmd.extractLsb' 8 7

/-- The ALG bit of an algorithm: 0 = MD5, 1 = SHA-1 (R21, R82). -/
def Alg.bit : Alg → BitVec 1
  | .md5 => 0
  | .sha1 => 1

/-- The algorithm an ALG bit selects; both values are legal (R82). -/
def Alg.ofBit (b : BitVec 1) : Alg := if b = 1 then .sha1 else .md5

/-- The operation an OP value selects; 0x0 and 0x6..0xF are reserved (R81). -/
def opOf (op : BitVec 4) : Option Op :=
  if op = 0x1 then some .init
  else if op = 0x2 then some .update
  else if op = 0x3 then some .final
  else if op = 0x4 then some .rdstat
  else if op = 0x5 then some .rddig
  else none

/-- RESMASK(OP), the bits that must be 0 (R84). -/
def resMask : Op → Word
  | .init => 0xFFFFFFE0
  | .update => 0xFFFF80F0
  | .final => 0xFFFFFFF0
  | .rdstat => 0xFFFFFFF0
  | .rddig => 0xFFFFFFF0

/-! ## Decoding (R88) -/

/-- What the decoder answers: a command, or the fault of the first check that fails. -/
inductive Decoded where
  | ok (i : Instr)
  | fault (c : FaultCode)
  deriving DecidableEq, Repr

/-- The command of an operation, with `alg = cmd[4]` and `count = cmd[14:8]` (the last line of R88). -/
def dispatchOp (op : Op) (cmd : Word) (data : Lanes) : Instr :=
  match op with
  | .init => .init (Alg.ofBit (algField cmd))
  | .update => .update (countField cmd) data
  | .final => .final
  | .rdstat => .rdstat
  | .rddig => .rddig

/-- Decoding: the checks of R88 in its order; the first that fails decides the fault. -/
def decode (cmd : Word) (data : Lanes) : Decoded :=
  match opOf (opField cmd) with
  | none => .fault .illegalOp
  | some op =>
    if cmd &&& resMask op ≠ 0 then .fault .reservedBits
    else if op = .update ∧ 64 < (countField cmd).toNat then .fault .countRange
    else .ok (dispatchOp op cmd data)

/-! ## Encoding (R87) -/

/-- A data operand of zeros: what the host presents with a command that reads no lane (R91). -/
def zeroLanes : Lanes := Vector.replicate 64 0

/-- The command word of a command (R87, R91, R180, R240). -/
def encode : Instr → Word
  | .init alg => 0x00000001#32 ||| (alg.bit.setWidth 32 <<< 4)
  | .update count _ => 0x00000002#32 ||| (count.setWidth 32 <<< 8)
  | .final => 0x00000003
  | .rdstat => 0x00000004
  | .rddig => 0x00000005

/-- The data operand of a command: an UPDATE's own lanes; zeros for a command that ignores DATA (R85, R91). -/
def encodeData : Instr → Lanes
  | .init _ => zeroLanes
  | .update _ data => data
  | .final => zeroLanes
  | .rdstat => zeroLanes
  | .rddig => zeroLanes

/-- A row of the command table: a word matches it when `(cmd & mask) = pattern` (R87). -/
structure CommandRow where
  mnemonic : String
  pattern : Word
  mask : Word
  deriving DecidableEq, Repr

/-- The row of each operation (R87). -/
def commandRow : Op → CommandRow
  | .init => ⟨"INIT", 0x00000001, 0xFFFFFFEF⟩
  | .update => ⟨"UPDATE", 0x00000002, 0xFFFF80FF⟩
  | .final => ⟨"FINAL", 0x00000003, 0xFFFFFFFF⟩
  | .rdstat => ⟨"RDSTAT", 0x00000004, 0xFFFFFFFF⟩
  | .rddig => ⟨"RDDIG", 0x00000005, 0xFFFFFFFF⟩

/-- Does a word match an operation's row (R87)? -/
def matchesRow (cmd : Word) (op : Op) : Bool := cmd &&& (commandRow op).mask == (commandRow op).pattern

/-- The complete command table, in the order of R87. -/
def commandTable : List CommandRow := [Op.init, .update, .final, .rdstat, .rddig].map commandRow

/-! ## Words as spec/opcode_table.json numbers their bits -/

/-- Bits 31..0 of a table word of `nbits` bits: the command word. -/
def tableCommand (nbits w : Nat) : Word := BitVec.ofNat 32 (w % 2 ^ nbits)

/-- The bits of a table word above bit 31, as lanes: lane j is bits 32 + 8j + 7 .. 32 + 8j, so lane 0 follows the
command word. DESIGN CHOICE, safe (log 6): the table numbers the command word's 32 bits only, and then every lane is 0. -/
def tableLanes (nbits w : Nat) : Lanes :=
  ⟨((List.range 64).map fun j => BitVec.ofNat 8 (w % 2 ^ nbits / 2 ^ 32 / 256 ^ j)).toArray, by simp⟩

/-- The command the decoder reads from a table word; none where it refuses. -/
def decodeTableWord (nbits w : Nat) : Option Instr :=
  match decode (tableCommand nbits w) (tableLanes nbits w) with
  | .ok i => some i
  | .fault _ => none

end Sys2Proof
end

