-- ==== Sys2Proof/Config.lean ====
section
/-! DEFINITION. The parameters of R7 that depend on the algorithm, and the one parameter the spec leaves open.
No rule of the spec draws a value (R13), so there is no free value here. -/

namespace Sys2Proof.Config

/-- NW(ALG), the number of state words (R7, R22). -/
def numWords : Alg → Nat
  | .md5 => 4
  | .sha1 => 5

/-- ROUNDS(ALG) (R7). -/
def rounds : Alg → Nat
  | .md5 => 64
  | .sha1 => 80

/-- DIGEST_BYTES(ALG) (R7, D23). -/
def digestBytes : Alg → Nat
  | .md5 => 16
  | .sha1 => 20

/-- The values of HostElementByteOrder, the host's native byte order for wide elements: OPEN in the spec (R7, R243,
D22), so the host-side function that needs it takes it as an argument (log 11). The block never reads it. -/
inductive ByteOrder where
  | little
  | big
  deriving DecidableEq, Repr

end Sys2Proof.Config
end

