-- ==== Sys2Proof/Machine/State.lean ====
section
/-! DEFINITION. The state of the machine as plain data: the block's registers of R20, and the two sides of its host
interface (R296, R298); the reasons a step could stop; the state after reset (R35, R290). -/

namespace Sys2Proof.Machine

/-- The scratch buffer BUF as a list of (offset, byte) pairs in one canonical form, Memory.wf in Machine/Ops.lean:
offsets 0..63 strictly rising, and no entry equal to what an unlisted offset reads as (R24, R50). -/
abbrev Memory := List Host.Cell

/-- RESP.data: no bytes, the 32-bit STATUS word, or the 16 or 20 digest bytes (R30, R86). -/
inductive RespData where
  | empty
  | status (w : Word)
  | digest (bytes : List Byte)
  deriving DecidableEq, Repr

/-- One response (R30, R86): ack = true when the command was performed, false when it faulted. -/
structure Response where
  ack : Bool
  data : RespData
  deriving DecidableEq, Repr

/-- One action of the host (R298): a command word with its data operand, or a hardware reset. -/
inductive HostAction where
  | command (cmd : Word) (data : Lanes)
  | reset
  deriving DecidableEq, Repr

/-- The state. Fields h to fault are the block's registers, BlockState of R20; host and responses are the host's side
of the interface, the model's own fields. -/
structure State where
  /-- ALG and H (R21, R22): the constructor is ALG, the words are H. -/
  h : HashWords
  /-- BUF, the scratch buffer (R24). -/
  buf : Memory
  /-- BUF_USED, the count of valid bytes in BUF (R25). -/
  bufUsed : BitVec 6
  /-- LO, the low half of the bit-length counter (R26). -/
  lo : Word
  /-- HI, the high half of the bit-length counter (R26). -/
  hi : Word
  /-- FIN, set by a successful FINAL (R27). -/
  fin : Bool
  /-- FAULT, the code of the first fault since reset, 0 if none (R28). -/
  fault : BitVec 4
  /-- The host's remaining actions, in the order it issues them (R8, R296; DESIGN CHOICE, safe, log 1). -/
  host : List HostAction
  /-- The responses the host has received, oldest first (R296; DESIGN CHOICE, safe, log 2). -/
  responses : List Response
  deriving DecidableEq, Repr

/-- Why the machine could stop with a fault: it never does, so there is no constructor. A fault of the spec is a
refused command that latches a code and answers ack = 0, after which the block goes on: a next state (R260, R269 to
R272), and no behaviour hangs or halts (R297). Safe: no step can answer `fault` (log 9). -/
inductive Fault where
  deriving DecidableEq, Repr

/-- Why the model could refuse a command. -/
inductive Refusal where
  /-- Answered by an arm of exec whose command has no meaning yet; no arm does. Safe. -/
  | notModelled (mnemonic : String)
  deriving DecidableEq, Repr

/-- What a step or a meaning answers. -/
abbrev Result := Host.Outcome State Fault Refusal

/-- The machine right after reset (R35, R290): ALG = 0 and H the MD5 IV; BUF_USED, LO, HI, FIN and FAULT 0; BUF with
nothing listed (its bytes are unspecified; log 4); the host has done nothing yet and received nothing (log 1, log 2). -/
def State.reset : State where
  h := iv .md5
  buf := []
  bufUsed := 0
  lo := 0
  hi := 0
  fin := false
  fault := 0
  host := []
  responses := []

end Sys2Proof.Machine
end

