-- ==== Sys2Proof/Machine/Operands.lean ====
section
/-! DEFINITION. The operand forms: byte and word conversions (R11, R52 to R55), the rotation (R113), the lanes an UPDATE
reads (R85), the views of ALG, H and the bit-length counter (R21, R22, R26). -/

namespace Sys2Proof.Machine

/-- Left rotation of a word by n, 1 <= n <= 31 (R10, R113). -/
def rotl (x : Word) (n : Nat) : Word := (x <<< n) ||| (x >>> (32 - n))

/-- Byte k of a byte sequence; every use is within the sequence. -/
def byteAt (b : List Byte) (k : Nat) : Byte := b.getD k 0

/-- LE32(b, k) = b[k] + 2^8*b[k+1] + 2^16*b[k+2] + 2^24*b[k+3] (R11, R52). -/
def le32 (b : List Byte) (k : Nat) : Word :=
  BitVec.ofNat 32 ((byteAt b k).toNat + 2 ^ 8 * (byteAt b (k + 1)).toNat + 2 ^ 16 * (byteAt b (k + 2)).toNat +
    2 ^ 24 * (byteAt b (k + 3)).toNat)

/-- BE32(b, k) = 2^24*b[k] + 2^16*b[k+1] + 2^8*b[k+2] + b[k+3] (R11, R53). -/
def be32 (b : List Byte) (k : Nat) : Word :=
  BitVec.ofNat 32 (2 ^ 24 * (byteAt b k).toNat + 2 ^ 16 * (byteAt b (k + 1)).toNat +
    2 ^ 8 * (byteAt b (k + 2)).toNat + (byteAt b (k + 3)).toNat)

/-- le_bytes_n(v): byte j is v[8j+7:8j] (R11). -/
def leBytes {w : Nat} (n : Nat) (v : BitVec w) : List Byte :=
  (List.range n).map fun j => v.extractLsb' (8 * j) 8

/-- be_bytes_n(v): byte j is v[8(n-1-j)+7:8(n-1-j)] (R11). -/
def beBytes {w : Nat} (n : Nat) (v : BitVec w) : List Byte :=
  (List.range n).map fun j => v.extractLsb' (8 * (n - 1 - j)) 8

/-- The message bytes of an UPDATE: DATA[0 .. count-1], in stream order; later lanes are ignored (R57, R85). -/
def messageBytes (count : BitVec 7) (data : Lanes) : List Byte := data.toList.take count.toNat

/-- n zero bytes (R211). -/
def zeroBytes (n : Nat) : List Byte := List.replicate n 0

/-- ALG, read from the state words (R21). -/
def hashAlg : HashWords → Alg
  | .md5 _ => .md5
  | .sha1 _ => .sha1

/-- H as the ordered sequence H[0], H[1], ... of NW(ALG) words (R22). -/
def hashWordList : HashWords → List Word
  | .md5 w => [w.a, w.b, w.c, w.d]
  | .sha1 w => [w.a, w.b, w.c, w.d, w.e]

/-- The register ALG (R21). -/
def State.alg (s : State) : Alg := hashAlg s.h

/-- The counter as the 64-bit value HI * 2^32 + LO (R26, R213). -/
def State.lengthBits (s : State) : BitVec 64 := s.hi ++ s.lo

/-- L = HI * 2^32 + LO (R26). -/
def State.bitLength (s : State) : Nat := s.hi.toNat * 2 ^ 32 + s.lo.toNat

end Sys2Proof.Machine
end

