-- ==== Sys2Proof/Machine/Flags.lean ====
section
/-! DEFINITION. The flags FIN and FAULT as software sees them: the fault codes (R261) and the STATUS view (R29). There are
no arithmetic flags (R37). -/

namespace Sys2Proof.Machine

/-- The value a fault writes to FAULT (R261). -/
def faultValue : FaultCode → BitVec 4
  | .illegalOp => 1
  | .reservedBits => 2
  | .countRange => 3
  | .updateAfterFinal => 4
  | .finalAfterFinal => 5
  | .digestNotReady => 6

/-- FIN as one bit (R27). -/
def finBit (fin : Bool) : BitVec 1 := if fin then 1 else 0

/-- STATUS = zext(FIN) | (zext(ALG) << 1) | (zext(BUF_USED) << 8) | (zext(FAULT) << 16) (R29). -/
def statusWord (s : State) : Word :=
  (finBit s.fin).setWidth 32 ||| (s.alg.bit.setWidth 32 <<< 1) ||| (s.bufUsed.setWidth 32 <<< 8) |||
    (s.fault.setWidth 32 <<< 16)

end Sys2Proof.Machine
end

