-- ==== Sys2Proof/Machine/Ops.lean ====
section
/-! DEFINITION. The named operations over BUF and the registers, and the fault action. -/

namespace Sys2Proof.Machine

/-! ## The scratch buffer (R50, R51) -/

/-- What a BUF byte that nothing has written reads as. The spec leaves it unspecified and no rule reads it before
writing it (R24, R35, D26). DESIGN CHOICE, unsafe (log 4). -/
def unlistedByte : Byte := 0

/-- BUF[a]: the byte listed at offset a, or what an unlisted offset reads as. -/
def Memory.readByte (m : Memory) (a : Nat) : Byte :=
  match m.find? (fun c => c.1 == a) with
  | some c => c.2
  | none => unlistedByte

/-- The entries a byte needs: none when it equals what an unlisted offset reads as. -/
def byteCells (a : Nat) (v : Byte) : Memory := if v = unlistedByte then [] else [(a, v)]

/-- BUF[a] <- v, keeping the canonical form. Offsets are 0..63 (R50); no use is outside them, and outside them there
is no byte to write (R51; DEDUCED, safe, log 10). -/
def Memory.writeByte (m : Memory) (a : Nat) (v : Byte) : Memory :=
  if a < 64 then
    m.filter (fun c => decide (c.1 < a)) ++ byteCells a v ++ m.filter (fun c => decide (a < c.1))
  else m

/-- MemRead(off, n) = BUF[off], ..., BUF[off+n-1] (R51). -/
def Memory.read (m : Memory) (off n : Nat) : List Byte :=
  (List.range n).map fun j => m.readByte (off + j)

/-- MemWrite(off, n, v) with n the length of v: BUF[off+j] <- v[j] (R51). -/
def Memory.write (m : Memory) (off : Nat) : List Byte → Memory
  | [] => m
  | v :: vs => Memory.write (m.writeByte off v) (off + 1) vs

/-- The canonical form from offset `lo` on: offsets strictly rising and below 64, no entry that reads as an unlisted
offset does. -/
def Memory.wfFrom (lo : Nat) : Memory → Bool
  | [] => true
  | (a, v) :: m => decide (lo ≤ a) && decide (a < 64) && !(v == unlistedByte) && Memory.wfFrom (a + 1) m

/-- The canonical form of BUF. -/
def Memory.wf (m : Memory) : Bool := Memory.wfFrom 0 m

/-! ## Responses and the fault action -/

/-- `respond(data)`: the command ends with ack = 1 (R12, R86). -/
def respond (data : RespData) (s : State) : State :=
  { s with responses := s.responses ++ [⟨true, data⟩] }

/-- What FAULT holds after a fault: the first fault since reset wins (R269, R270). -/
def latch (old : BitVec 4) (c : FaultCode) : BitVec 4 := if old = 0 then faultValue c else old

/-- `raise Fault(code)`, the one exception action of the block (R269): FAULT <- code if it was 0, ack = 0 with empty
data, no other register changes, and the command ends. No control is transferred and nothing is saved (R271), so there
is no return (R272). -/
def raiseFault (c : FaultCode) (s : State) : State :=
  { s with
    fault := latch s.fault c
    responses := s.responses ++ [⟨false, .empty⟩] }

/-! ## Starting a computation -/

/-- What INIT writes: ALG, H <- IV(alg), BUF_USED, LO, HI, FIN <- 0; BUF and FAULT are not changed (R240). -/
def startComputation (alg : Alg) (s : State) : State :=
  { s with
    h := iv alg
    bufUsed := 0
    lo := 0
    hi := 0
    fin := false }

/-- The hardware reset (R290): every register at its reset value (R35); no response, and the host's remaining actions
are as they were. BUF, unspecified after a reset, is again the reset state's (log 4). -/
def hardwareReset (s : State) : State :=
  { State.reset with
    host := s.host
    responses := s.responses }

end Sys2Proof.Machine
end

