-- ==== Sys2Proof/Machine/Control.lean ====
section
/-! DEFINITION. INIT and RDSTAT (44_control.md). -/

namespace Sys2Proof.Machine

/-- INIT (R240): begin a new computation with `alg`; BUF and FAULT are not changed. -/
def execInit (alg : Alg) (s : State) : Result := .next (respond .empty (startComputation alg s))

/-- RDSTAT (R241): respond with STATUS; works in every state. -/
def execRdstat (s : State) : Result := .next (respond (.status (statusWord s)) s)

end Sys2Proof.Machine
end

