-- ==== Sys2Proof/Machine/Md5.lean ====
section
/-! DEFINITION. The MD5 compression transform, CompressMD5 (40_md5_compression.md). -/

namespace Sys2Proof.Machine

/-- X[0..15] of a 64-byte block (R111). -/
def md5MessageWords (blk : List Byte) : List Word := (List.range 16).map fun j => le32 blk (4 * j)

/-- F, steps 0..15 (R115). -/
def md5F (b c d : Word) : Word := (b &&& c) ||| (~~~b &&& d)

/-- G, steps 16..31 (R116). -/
def md5G (b c d : Word) : Word := (d &&& b) ||| (~~~d &&& c)

/-- H, steps 32..47 (R117). -/
def md5H (b c d : Word) : Word := b ^^^ c ^^^ d

/-- I, steps 48..63 (R118). -/
def md5I (b c d : Word) : Word := c ^^^ (b ||| ~~~d)

/-- FUN(i) (R119). -/
def md5Fun (i : Nat) (b c d : Word) : Word :=
  match i / 16 with
  | 0 => md5F b c d
  | 1 => md5G b c d
  | 2 => md5H b c d
  | _ => md5I b c d

/-- Step i on the working variables with message words X (R124). -/
def md5Step (x : List Word) (w : Md5Words) (i : Nat) : Md5Words :=
  let f := md5Fun i w.b w.c w.d
  let tmp := w.a + f + x.getD (md5Index i) 0 + md5T.getD i 0
  { a := w.d
    b := w.b + rotl tmp (md5Shift i)
    c := w.b
    d := w.c }

/-- The working variables after the first n steps from Hin. -/
def md5Rounds (n : Nat) (hin : Md5Words) (blk : List Byte) : Md5Words :=
  (List.range n).foldl (md5Step (md5MessageWords blk)) hin

/-- CompressMD5(Hin, blk) (R125). -/
def compressMd5 (hin : Md5Words) (blk : List Byte) : Md5Words :=
  let w := md5Rounds (Config.rounds .md5) hin blk
  { a := hin.a + w.a
    b := hin.b + w.b
    c := hin.c + w.c
    d := hin.d + w.d }

end Sys2Proof.Machine
end

