-- ==== Sys2Proof/Machine/Sha1.lean ====
section
/-! DEFINITION. The SHA-1 compression transform, CompressSHA1 (41_sha1_compression.md). -/

namespace Sys2Proof.Machine

/-- W[0..15] of a 64-byte block (R151). -/
def sha1MessageWords (blk : List Byte) : List Word := (List.range 16).map fun j => be32 blk (4 * j)

/-- W[t] from the words before it (R152). -/
def sha1Expand (w : List Word) (t : Nat) : Word :=
  rotl (w.getD (t - 3) 0 ^^^ w.getD (t - 8) 0 ^^^ w.getD (t - 14) 0 ^^^ w.getD (t - 16) 0) 1

/-- W[0..16+n-1]: the message words and the first n expanded words (R152). -/
def sha1ScheduleTo (n : Nat) (blk : List Byte) : List Word :=
  (List.range n).foldl (fun w k => w ++ [sha1Expand w (16 + k)]) (sha1MessageWords blk)

/-- W[0..79] (R151, R152). -/
def sha1Schedule (blk : List Byte) : List Word := sha1ScheduleTo (Config.rounds .sha1 - 16) blk

/-- Ch, steps 0..19 (R153). -/
def sha1Ch (b c d : Word) : Word := (b &&& c) ||| (~~~b &&& d)

/-- Parity, steps 20..39 and 60..79 (R153; 90_conflicts.md C3). -/
def sha1Parity (b c d : Word) : Word := b ^^^ c ^^^ d

/-- Maj, steps 40..59 (R153). -/
def sha1Maj (b c d : Word) : Word := (b &&& c) ||| (b &&& d) ||| (c &&& d)

/-- f(t; b, c, d) (R153). -/
def sha1Fun (t : Nat) (b c d : Word) : Word :=
  if t ≤ 19 then sha1Ch b c d
  else if t ≤ 39 then sha1Parity b c d
  else if t ≤ 59 then sha1Maj b c d
  else sha1Parity b c d

/-- Step t on the working variables with schedule W (R156). -/
def sha1Step (sched : List Word) (w : Sha1Words) (t : Nat) : Sha1Words :=
  let tmp := rotl w.a 5 + sha1Fun t w.b w.c w.d + w.e + sched.getD t 0 + sha1K t
  { a := tmp
    b := w.a
    c := rotl w.b 30
    d := w.c
    e := w.d }

/-- The working variables after the first n steps from Hin. -/
def sha1Rounds (n : Nat) (hin : Sha1Words) (blk : List Byte) : Sha1Words :=
  (List.range n).foldl (sha1Step (sha1Schedule blk)) hin

/-- CompressSHA1(Hin, blk) (R157). -/
def compressSha1 (hin : Sha1Words) (blk : List Byte) : Sha1Words :=
  let w := sha1Rounds (Config.rounds .sha1) hin blk
  { a := hin.a + w.a
    b := hin.b + w.b
    c := hin.c + w.c
    d := hin.d + w.d
    e := hin.e + w.e }

end Sys2Proof.Machine
end

