-- ==== Sys2Proof/Machine/Compress.lean ====
section
/-! DEFINITION. The compression the block performs, CompressMD5 or CompressSHA1 by ALG (R185). -/

namespace Sys2Proof.Machine

/-- Compress(ALG, H, blk) (R185); ALG is the constructor of H. -/
def compress (h : HashWords) (blk : List Byte) : HashWords :=
  match h with
  | .md5 w => .md5 (compressMd5 w blk)
  | .sha1 w => .sha1 (compressSha1 w blk)

end Sys2Proof.Machine
end

