-- ==== Sys2Proof/Machine/Finalize.lean ====
section
/-! DEFINITION. FINAL and RDDIG: padding, finalization and digest serialization (43_finalization.md). -/

namespace Sys2Proof.Machine

/-- The state words, the buffer and the fill count while FINAL pads; the fill count reaches 64 inside it (R211), so
it is not the register BUF_USED. -/
structure PadWork where
  h : HashWords
  buf : Memory
  used : Nat
  deriving DecidableEq, Repr

/-- Step 1 of Pad: append the byte 0x80 (R211). -/
def padMark (s : State) : PadWork :=
  { h := s.h
    buf := s.buf.write s.bufUsed.toNat [0x80]
    used := s.bufUsed.toNat + 1 }

/-- Step 2 of Pad: when fewer than 8 bytes remain, zero-fill, compress, and start a fresh all-zero buffer (R211). -/
def padOverflow (p : PadWork) : PadWork :=
  if 64 - p.used < 8 then
    let full := p.buf.write p.used (zeroBytes (64 - p.used))
    { h := compress p.h (full.read 0 64)
      buf := full.write 0 (zeroBytes 64)
      used := 0 }
  else p

/-- The eight length bytes of step 4: little-endian for MD5, big-endian for SHA-1 (R54, R211). -/
def lengthField (alg : Alg) (len : BitVec 64) : List Byte :=
  match alg with
  | .md5 => leBytes 8 len
  | .sha1 => beBytes 8 len

/-- Steps 3 to 5 of Pad: zero-fill to offset 56, write the length, compress (R211). -/
def padLength (alg : Alg) (len : BitVec 64) (p : PadWork) : PadWork :=
  let filled := p.buf.write p.used (zeroBytes (56 - p.used))
  let full := filled.write 56 (lengthField alg len)
  { h := compress p.h (full.read 0 64)
    buf := full
    used := p.used }

/-- Pad() (R211): the length written is the counter as it stands before any padding (R213). -/
def pad (s : State) : PadWork := padLength s.alg s.lengthBits (padOverflow (padMark s))

/-- What a successful FINAL leaves: the final words, the last padded block in BUF, BUF_USED = 0, FIN = 1; LO, HI, ALG
and FAULT unchanged (R210, R217). -/
def finalize (s : State) : State :=
  let p := pad s
  { s with
    h := p.h
    buf := p.buf
    bufUsed := 0
    fin := true }

/-- FINAL (R210): fault 5 when FIN = 1; else pad and finalize. -/
def execFinal (s : State) : Result :=
  if s.fin then .next (raiseFault .finalAfterFinal s) else .next (respond .empty (finalize s))

/-- Serialize(alg, H): four bytes per word, little-endian for MD5 and big-endian for SHA-1 (R55, R214). -/
def serialize : HashWords → List Byte
  | .md5 w => leBytes 4 w.a ++ leBytes 4 w.b ++ leBytes 4 w.c ++ leBytes 4 w.d
  | .sha1 w => beBytes 4 w.a ++ beBytes 4 w.b ++ beBytes 4 w.c ++ beBytes 4 w.d ++ beBytes 4 w.e

/-- RDDIG (R215): fault 6 when FIN = 0; else respond with the 16 or 20 digest bytes. -/
def execRddig (s : State) : Result :=
  if s.fin then .next (respond (.digest (serialize s.h)) s) else .next (raiseFault .digestNotReady s)

end Sys2Proof.Machine
end

