-- ==== Sys2Proof/Machine/Update.lean ====
section
/-! DEFINITION. UPDATE, the streaming absorb (42_streaming_update.md). -/

namespace Sys2Proof.Machine

/-- CounterAdd(count): the low half wraps at 2^32 and carries into the high half, which wraps without a fault
(R181, R184). -/
def counterAdd (count : Nat) (s : State) : State :=
  let bits := count * 8
  let sum := s.lo.toNat + bits
  { s with
    lo := BitVec.ofNat 32 sum
    hi := if 2 ^ 32 ≤ sum then s.hi + 1 else s.hi }

/-- Step 3 of Absorb: while at least 64 bytes of input remain, compress them directly; answers the state words and
what remains. The first argument bounds the loop: length / 64 turns suffice (R182). -/
def absorbBlocks : Nat → HashWords → List Byte → HashWords × List Byte
  | 0, h, rest => (h, rest)
  | n + 1, h, rest =>
    if 64 ≤ rest.length then absorbBlocks n (compress h (rest.take 64)) (rest.drop 64) else (h, rest)

/-- Steps 3 and 4 of Absorb, from an empty buffer: compress whole blocks from the input, then copy the leftover into
BUF (R182). -/
def absorbFromEmpty (bytes : List Byte) (s : State) : State :=
  let r := absorbBlocks (bytes.length / 64) s.h bytes
  { s with
    h := r.1
    buf := s.buf.write 0 r.2
    bufUsed := BitVec.ofNat 6 r.2.length }

/-- Absorb(count) on DATA[0 .. count-1] (R182). -/
def absorb (bytes : List Byte) (s : State) : State :=
  let used := s.bufUsed.toNat
  if 0 < used then
    if bytes.length < 64 - used then
      { s with
        buf := s.buf.write used bytes
        bufUsed := BitVec.ofNat 6 (used + bytes.length) }
    else
      let k := 64 - used
      let filled := s.buf.write used (bytes.take k)
      absorbFromEmpty (bytes.drop k)
        { s with
          buf := filled
          h := compress s.h (filled.read 0 64)
          bufUsed := 0 }
  else absorbFromEmpty bytes s

/-- UPDATE (R180): fault 4 when FIN = 1; else count and absorb. Decoding has checked COUNT (R88). -/
def execUpdate (count : BitVec 7) (data : Lanes) (s : State) : Result :=
  if s.fin then .next (raiseFault .updateAfterFinal s)
  else .next (respond .empty (absorb (messageBytes count data) (counterAdd count.toNat s)))

end Sys2Proof.Machine
end

