-- ==== Sys2Proof/Machine/Dispatch.lean ====
section
/-! DEFINITION. What each command does: one arm per constructor of Instr. -/

namespace Sys2Proof.Machine

def exec (i : Instr) (s : State) : Host.Outcome State Fault Refusal :=
  match i with
  | .init alg => Sys2Proof.Machine.execInit alg s
  | .update count data => Sys2Proof.Machine.execUpdate count data s
  | .final => Sys2Proof.Machine.execFinal s
  | .rdstat => Sys2Proof.Machine.execRdstat s
  | .rddig => Sys2Proof.Machine.execRddig s

end Sys2Proof.Machine
end

