-- ==== Sys2Proof/Machine/Fetch.lean ====
section
/-! DEFINITION. How the next command reaches the block: the host's next action, taken from State.host and decoded
(R8, R30, R31, R88, R298). The block has no program counter and fetches no stored program. -/

namespace Sys2Proof.Machine

/-- What the host does next, with the state in which that action is no longer to come. -/
inductive Fetched where
  /-- The host has nothing more to do: the block waits. -/
  | idle
  /-- A hardware reset. -/
  | reset (s : State)
  /-- A command that decodes. -/
  | run (i : Instr) (s : State)
  /-- A command word that faults in decoding. -/
  | malformed (c : FaultCode) (s : State)
  deriving DecidableEq, Repr

/-- Take the host's next action. CMD and DATA hold its word and lanes while the command runs and no state afterwards
(R30). -/
def fetch (s : State) : Fetched :=
  match s.host with
  | [] => .idle
  | .reset :: rest => .reset { s with host := rest }
  | .command cmd data :: rest =>
    match decode cmd data with
    | .ok i => .run i { s with host := rest }
    | .fault c => .malformed c { s with host := rest }

/-- The host issues one more command, before all its other actions: the command of a table word (log 1). -/
def issueTableWord (nbits w : Nat) (s : State) : State :=
  { s with host := .command (tableCommand nbits w) (tableLanes nbits w) :: s.host }

end Sys2Proof.Machine
end

