-- ==== Sys2Proof/Machine/Step.lean ====
section
/-! DEFINITION. One step: the host's next action, performed to its end (R13, R59). -/

namespace Sys2Proof.Machine

/-- One step. With no action waiting the block holds its state (R281, R291; DEDUCED, safe, log 8); a reset is R290; a
word that does not decode takes the fault action (R88, R269); a command is executed. -/
def step (s : State) : Host.Outcome State Fault Refusal :=
  match fetch s with
  | .idle => .next s
  | .reset t => .next (hardwareReset t)
  | .run i t => exec i t
  | .malformed c t => .next (raiseFault c t)

/-- `s` with the command of a table word placed where step takes its next command: at the head of the host's actions.
Nothing else changes (log 1). -/
def State.withFetchWord (s : State) (nbits w : Nat) : State := issueTableWord nbits w s

end Sys2Proof.Machine
end

