-- ==== Sys2Proof/Machine/HostSide.lean ====
section
/-! DEFINITION. The host's side: the assembler lines of R91, the pseudo-instructions ABSORB (R92) and HASH (R93, R242),
and the flattening of wide elements (R243). None of it is part of the block (R6); it says which actions the host puts
into State.host. -/

namespace Sys2Proof.Machine

/-- Lanes with the given bytes from lane 0 on, other lanes 0 (R91). -/
def lanesOf (bytes : List Byte) : Lanes := ⟨((List.range 64).map fun j => byteAt bytes j).toArray, by simp⟩

/-- The host issues a command (R298). -/
def commandAction (i : Instr) : HostAction := .command (encode i) (encodeData i)

/-- The host sends at most 64 bytes in one UPDATE (R91). -/
def updateAction (bytes : List Byte) : HostAction :=
  commandAction (.update (BitVec.ofNat 7 bytes.length) (lanesOf bytes))

/-- A line of the spec's assembler (R91), its text already read: `UPDATE n, ...` carries its n bytes. -/
inductive AsmLine where
  | init (alg : Alg)
  | update (bytes : List Byte)
  | final
  | rdstat
  | rddig
  | word (w : Word)
  deriving DecidableEq, Repr

/-- The action a line assembles to; none for an UPDATE line of more than 64 bytes, which the syntax does not have
(R91). -/
def assemble : AsmLine → Option HostAction
  | .init alg => some (commandAction (.init alg))
  | .update bytes => if bytes.length ≤ 64 then some (updateAction bytes) else none
  | .final => some (commandAction .final)
  | .rdstat => some (commandAction .rdstat)
  | .rddig => some (commandAction .rddig)
  | .word w => some (.command w zeroLanes)

/-- Block q of a byte string: its bytes 64q .. 64q+63. -/
def blockOf (bytes : List Byte) (q : Nat) : List Byte := (bytes.drop (64 * q)).take 64

/-- ABSORB: floor(m / 64) UPDATEs of 64 bytes, then one of m mod 64 bytes if that is not 0 (R92). -/
def absorbActions (bytes : List Byte) : List HostAction :=
  ((List.range (bytes.length / 64)).map fun q => updateAction (blockOf bytes q)) ++
    if bytes.length % 64 ≠ 0 then [updateAction (bytes.drop (64 * (bytes.length / 64)))] else []

/-- The source's `update(bytes, count)` as the host performs it: a null source with a non-zero count is caller error and
the host refuses it (R294); other sources are the count bytes they hold. -/
def absorbCall (source : Option (List Byte)) (count : Nat) : Option (List HostAction) :=
  match source with
  | none => if count = 0 then some [] else none
  | some bytes => if bytes.length = count then some (absorbActions bytes) else none

/-- The range HASH is called with (R242). -/
inductive HostRange where
  | nullPointer
  | inverted
  | bytes (m : List Byte)
  deriving DecidableEq, Repr

/-- What HASH does: answer at once without a command, or issue commands and answer the last response's data. -/
inductive HashPlan where
  | answer (digest : List Byte)
  | issue (actions : List HostAction)
  deriving DecidableEq, Repr

/-- EMPTY(alg), the digest of the empty message (R242). -/
def emptyDigest : Alg → List Byte
  | .md5 => [0xd4, 0x1d, 0x8c, 0xd9, 0x8f, 0x00, 0xb2, 0x04, 0xe9, 0x80, 0x09, 0x98, 0xec, 0xf8, 0x42, 0x7e]
  | .sha1 => [0xda, 0x39, 0xa3, 0xee, 0x5e, 0x6b, 0x4b, 0x0d, 0x32, 0x55, 0xbf, 0xef, 0x95, 0x60, 0x18, 0x90,
      0xaf, 0xd8, 0x07, 0x09]

/-- The commands of HASH on a byte string: INIT alg; ABSORB; FINAL; RDDIG (R242). -/
def hashActions (alg : Alg) (bytes : List Byte) : List HostAction :=
  commandAction (.init alg) :: (absorbActions bytes ++ [commandAction .final, commandAction .rddig])

/-- HASH alg, range: its cases in the order of R242. -/
def hashPlan (alg : Alg) : HostRange → HashPlan
  | .nullPointer => .answer (zeroBytes (Config.digestBytes alg))
  | .inverted => .answer (zeroBytes (Config.digestBytes alg))
  | .bytes [] => .answer (emptyDigest alg)
  | .bytes (v :: vs) => .issue (hashActions alg (v :: vs))

/-- The constituent bytes of one element of n bytes in the host's native order (R243). -/
def elementBytes (order : Config.ByteOrder) (n : Nat) (v : BitVec (8 * n)) : List Byte :=
  match order with
  | .little => leBytes n v
  | .big => beBytes n v

/-- A range of wide elements as the byte string HASH sees (R243); the byte order is the host's (D22, log 11). -/
def flattenWide (order : Config.ByteOrder) (n : Nat) (units : List (BitVec (8 * n))) : List Byte :=
  units.flatMap (elementBytes order n)

/-- The elements of a null-terminated sequence, whose length the host measures first (R243). -/
def measured {w : Nat} (units : List (BitVec w)) : List (BitVec w) := units.takeWhile (fun v => v != 0)

end Sys2Proof.Machine
end

