-- ==== Sys2Proof/Safety.lean ====
section
/-! DEFINITION. What claims are stated in terms of: the invariant of the block, clean runs, and the digest of a message as
one function of the whole message. -/

namespace Sys2Proof.Machine

/-- The invariant of every reachable state (R34 (i) and (ii), R25, R28, R217, and BUF's canonical form). -/
structure State.Inv (s : State) : Prop where
  /-- BUF is in canonical form, with offsets 0..63 only. -/
  bufWf : s.buf.wf = true
  /-- LO mod 8 = 0 (R34 (i)). -/
  loBytes : s.lo.toNat % 8 = 0
  /-- BUF_USED = (L / 8) mod 64 while FIN = 0 (R34 (ii)). -/
  usedOfLength : s.fin = false → s.bufUsed.toNat = s.bitLength / 8 % 64
  /-- BUF_USED = 0 when FIN = 1 (R34, R217). -/
  usedFinal : s.fin = true → s.bufUsed = 0
  /-- FAULT values 7..15 are never produced (R261). -/
  faultRange : s.fault.toNat ≤ 6

/-- A state a new computation with `alg` starts from: what INIT leaves, and reset for MD5 (R240, R290, R291). -/
structure State.StartOf (alg : Alg) (s : State) : Prop where
  h : s.h = iv alg
  bufUsed : s.bufUsed = 0
  lo : s.lo = 0
  hi : s.hi = 0
  fin : s.fin = false

/-- Two states hold the same computation: they differ at most in FAULT, in the responses received so far, and in BUF
bytes at offsets >= BUF_USED (R24, R245). -/
structure SameComputation (s t : State) : Prop where
  h : t.h = s.h
  bufUsed : t.bufUsed = s.bufUsed
  lo : t.lo = s.lo
  hi : t.hi = s.hi
  fin : t.fin = s.fin
  host : t.host = s.host
  buf : ∀ a, a < s.bufUsed.toNat → t.buf.readByte a = s.buf.readByte a

/-- A run is clean when FAULT = 0 at its end (R280). -/
def State.Clean (s : State) : Prop := s.fault = 0

/-- The host issues no reset among its remaining actions. -/
def NoReset (actions : List HostAction) : Prop := HostAction.reset ∉ actions

/-- The digests among the responses, in order. -/
def digestsOf (responses : List Response) : List (List Byte) :=
  responses.filterMap fun r => match r.data with
    | .digest bytes => some bytes
    | .empty => none
    | .status _ => none

/-- H after every whole block of a byte string, from IV(alg) (R183). -/
def absorbedWords (alg : Alg) (bytes : List Byte) : HashWords :=
  (List.range (bytes.length / 64)).foldl (fun h q => compress h (blockOf bytes q)) (iv alg)

/-- The whole message with its padding: 0x80, zero bytes up to 56 mod 64, and the 64-bit bit length (R211). -/
def paddedMessage (alg : Alg) (bytes : List Byte) : List Byte :=
  bytes ++ [0x80] ++ zeroBytes ((119 - bytes.length % 64) % 64) ++
    lengthField alg (BitVec.ofNat 64 (8 * bytes.length))

/-- The digest of a message, in one piece: compress the padded message's blocks from IV(alg) and serialize. -/
def digestOf (alg : Alg) (bytes : List Byte) : List Byte := serialize (absorbedWords alg (paddedMessage alg bytes))

/-- The fault a command word raises in a block whose FIN flag is `fin`, by priority; none if it is performed
(R268): the checks of R88 on the numeric value of the word, then the command's state check. -/
def faultOf (cmd : Word) (fin : Bool) : Option FaultCode :=
  let op := cmd.toNat % 16
  let count := cmd.toNat / 256 % 128
  if op = 0 ∨ 6 ≤ op then some .illegalOp
  else if op = 2 then
    if cmd.toNat / 16 % 16 ≠ 0 ∨ 2 ^ 15 ≤ cmd.toNat then some .reservedBits
    else if 64 < count then some .countRange
    else if fin then some .updateAfterFinal else none
  else if op = 1 then if 32 ≤ cmd.toNat then some .reservedBits else none
  else if 16 ≤ cmd.toNat then some .reservedBits
  else if op = 3 ∧ fin = true then some .finalAfterFinal
  else if op = 5 ∧ fin = false then some .digestNotReady
  else none

end Sys2Proof.Machine
end

