-- ==== Sys2Proof/Certificates/Slice0/Obligations.lean ====
section
/-! DEFINITION. The statements for the provers. Each docstring names the rules of spec/ it formalises; one whose rule the
spec itself marks as derived, or whose clause is the model's reading, says so. -/

open Sys2Proof Sys2Proof.Machine

/-! ## Encoding and decoding (30_encoding.md) -/

/-- Decoding an encoded well-formed command gives it back, every operand at every value (30_encoding.md sections 1, 2). -/
def Obligations.DecodeOfEncodeIsIdentity : Prop :=
  ∀ i : Instr, i.wellFormed = true → decode (encode i) (encodeData i) = .ok i

/-- A word that decodes is the encoding of what it decodes to, and that is well formed: no word has two readings and no
bit of a decoded word is ignored (30_encoding.md sections 1, 2). -/
def Obligations.EncodeOfDecodeIsWord : Prop :=
  ∀ (w : Word) (d : Lanes) (i : Instr), decode w d = .ok i →
    encode i = w ∧ i.wellFormed = true ∧ (i.op = .update → encodeData i = d)

/-- R87: the decoder performs exactly the words of the command table: each row's mask and match, UPDATE with COUNT <= 64
besides, and no word matches two rows. -/
def Obligations.DecodedWordsMatchOneTableRow : Prop :=
  (∀ (w : Word) (d : Lanes),
    ((∃ alg, decode w d = .ok (.init alg)) ↔ w &&& 0xFFFFFFEF#32 = 0x00000001#32) ∧
    ((∃ count, decode w d = .ok (.update count d)) ↔
      w &&& 0xFFFF80FF#32 = 0x00000002#32 ∧ (w.extractLsb' 8 7).toNat ≤ 64) ∧
    (decode w d = .ok .final ↔ w &&& 0xFFFFFFFF#32 = 0x00000003#32) ∧
    (decode w d = .ok .rdstat ↔ w &&& 0xFFFFFFFF#32 = 0x00000004#32) ∧
    (decode w d = .ok .rddig ↔ w &&& 0xFFFFFFFF#32 = 0x00000005#32)) ∧
  (∀ (w : Word) (op op' : Op), matchesRow w op = true → matchesRow w op' = true → op = op') ∧
  (∀ d : Lanes, decode 0x00000001 d = .ok (.init .md5) ∧ decode 0x00000011 d = .ok (.init .sha1) ∧
    decode 0x00000302 d = .ok (.update 3 d) ∧ decode 0x00004002 d = .ok (.update 64 d) ∧
    decode 0x00000003 d = .ok .final)

/-- R89: every word not matched by a row with COUNT <= 64 faults with code 1, 2 or 3 and has no other effect. -/
def Obligations.UnmatchedWordOnlyFaults : Prop :=
  ∀ (s : State) (w : Word) (d : Lanes) (rest : List HostAction),
    s.host = .command w d :: rest →
    (∀ op, matchesRow w op = true → op = .update ∧ 64 < (w.extractLsb' 8 7).toNat) →
    ∃ code : BitVec 4, (code = 1 ∨ code = 2 ∨ code = 3) ∧
      step s = .next { s with
        host := rest
        fault := if s.fault = 0 then code else s.fault
        responses := s.responses ++ [⟨false, .empty⟩] }

/-- A few words written out from the encodings decode to the commands, or to the faults, they stand for
(30_encoding.md section 2; 95_test_vectors.md section 9). -/
def Obligations.TabledWordsDecodeAsWritten : Prop :=
  decode 0b00000000000000000000000000010001#32 zeroLanes = .ok (.init .sha1) ∧
  decode 0b00000000000000000000001100000010#32 zeroLanes = .ok (.update 3 zeroLanes) ∧
  decode 0b00000000000000000000000000000011#32 zeroLanes = .ok .final ∧
  decode 0b00000000000000000000000000000100#32 zeroLanes = .ok .rdstat ∧
  decode 0b00000000000000000000000000000101#32 zeroLanes = .ok .rddig ∧
  decode 0x0000000F zeroLanes = .fault .illegalOp ∧
  decode 0x00000013 zeroLanes = .fault .reservedBits ∧
  decode 0x00004102 zeroLanes = .fault .countRange ∧
  decode 0x0000C1F2 zeroLanes = .fault .reservedBits

/-- R85: an UPDATE reads only the lanes below COUNT, every other command ignores DATA, and no lane value causes a fault:
two steps on the same word and data that agree on the lanes below COUNT of an UPDATE are the same step, and whether a word
decodes, or with which fault it does not, depends on no lane. -/
def Obligations.UnusedLanesAreIgnored : Prop :=
  ∀ (s : State) (w : Word) (d d' : Lanes) (rest : List HostAction),
    ((w.extractLsb' 0 4 = 0x2#4 →
      ∀ j, (hj : j < 64) → j < (w.extractLsb' 8 7).toNat → d[j] = d'[j]) →
      step { s with host := .command w d :: rest } = step { s with host := .command w d' :: rest }) ∧
    (∀ c, decode w d = .fault c ↔ decode w d' = .fault c)

/-! ## The step and the host interface (70_reset_and_hazards.md) -/

/-- A step runs the decoded command: with a command at the head of the host's actions whose word decodes to i, step is exec
of i in the state where that action is no longer to come. The block has no program counter (R31): the host's list is what
the step advances. -/
def Obligations.StepRunsDecodedCommand : Prop :=
  ∀ (s : State) (w : Word) (d : Lanes) (rest : List HostAction) (i : Instr),
    s.host = .command w d :: rest → decode w d = .ok i → step s = exec i { s with host := rest }

/-- With no action of the host waiting the block holds its state: the model's reading of "the block waits for the first
command" and "holds its state indefinitely" (log 8). -/
def Obligations.WaitingBlockHoldsState : Prop :=
  ∀ s : State, s.host = [] → step s = .next s

/-- R290: a hardware reset, from any state, sets every register to its reset value, has no response and cannot fault. BUF is
unspecified after it, so nothing is said of it. -/
def Obligations.HardwareResetSetsEveryRegister : Prop :=
  ∀ (s : State) (rest : List HostAction), s.host = .reset :: rest →
    ∃ t, step s = .next t ∧ t.alg = .md5 ∧ t.h = iv .md5 ∧ t.bufUsed = 0 ∧ t.lo = 0 ∧ t.hi = 0 ∧
      t.fin = false ∧ t.fault = 0 ∧ t.host = rest ∧ t.responses = s.responses

/-- The reset state, register by register, STATUS at reset, and the two initial values (10_state.md section 2; the spec marks
the initial values as general knowledge and STATUS at reset as derived, log 12). It is what INIT MD5 leaves, FAULT apart. -/
def Obligations.ResetStateAndInitialValues : Prop :=
  State.reset.alg = .md5 ∧
  State.reset.h = .md5 ⟨0x67452301, 0xefcdab89, 0x98badcfe, 0x10325476⟩ ∧
  State.reset.bufUsed = 0 ∧ State.reset.lo = 0 ∧ State.reset.hi = 0 ∧ State.reset.fin = false ∧
  State.reset.fault = 0 ∧ statusWord State.reset = 0x00000000 ∧
  iv .sha1 = .sha1 ⟨0x67452301, 0xEFCDAB89, 0x98BADCFE, 0x10325476, 0xC3D2E1F0⟩ ∧
  ∀ s : State, ∃ t, exec (.init .md5) s = .next t ∧ t.h = State.reset.h ∧ t.bufUsed = State.reset.bufUsed ∧
    t.lo = State.reset.lo ∧ t.hi = State.reset.hi ∧ t.fin = State.reset.fin

/-- Every step, from every state, answers a next state: nothing hangs, halts or is refused (70_reset_and_hazards.md
section 4, Termination). -/
def Obligations.EveryStepAnswersNextState : Prop := ∀ s : State, ∃ t, step s = .next t

/-- R86: every command, of any word in any state, produces one response: STATUS for a performed RDSTAT, which is always
performed; the 16 or 20 digest bytes for a performed RDDIG; no data for every other command and for every fault. -/
def Obligations.EveryCommandGetsOneResponse : Prop :=
  ∀ (s : State) (w : Word) (d : Lanes) (rest : List HostAction), s.host = .command w d :: rest →
    ∃ t r, step s = .next t ∧ t.host = rest ∧ t.responses = s.responses ++ [r] ∧
      (r.ack = false → r.data = .empty) ∧
      (w = 0x00000004 → r.ack = true ∧ r.data = .status (statusWord s)) ∧
      (r.ack = true → w = 0x00000005 →
        ∃ bytes, r.data = .digest bytes ∧ bytes = serialize s.h ∧
          bytes.length = (match s.alg with | .md5 => 16 | .sha1 => 20)) ∧
      (w ≠ 0x00000004 → w ≠ 0x00000005 → r.data = .empty)

/-! ## INIT and RDSTAT (44_control.md) -/

/-- R240: INIT, in every state, loads ALG and its initial value, empties the buffer, the counter and FIN, changes neither BUF
nor FAULT, and responds with no data; its word is 0x00000001 | (alg << 4). -/
def Obligations.InitStartsComputation : Prop :=
  ∀ (alg : Alg) (s : State), ∃ t, exec (.init alg) s = .next t ∧
    t.alg = alg ∧ t.h = iv alg ∧ t.bufUsed = 0 ∧ t.lo = 0 ∧ t.hi = 0 ∧ t.fin = false ∧
    (∀ a, t.buf.readByte a = s.buf.readByte a) ∧ t.buf = s.buf ∧ t.fault = s.fault ∧ t.host = s.host ∧
    t.responses = s.responses ++ [⟨true, .empty⟩] ∧
    (alg = .sha1 → t.h = .sha1 ⟨0x67452301, 0xEFCDAB89, 0x98BADCFE, 0x10325476, 0xC3D2E1F0⟩) ∧
    (alg = .sha1 → s.fault = 0 → statusWord t = 0x00000002) ∧
    (∀ d, decode (0x00000001#32 ||| ((if alg = .sha1 then 1#32 else 0#32) <<< 4)) d = .ok (.init alg))

/-- R29, R241: RDSTAT, in every state, responds with STATUS, whose bit 0 is FIN, bit 1 is ALG, bits 13:8 are BUF_USED, bits
19:16 are FAULT and every other bit is 0, so 0 after reset; no register and no byte of BUF changes. Its word is 0x00000004. -/
def Obligations.RdstatReturnsStatusFields : Prop :=
  (∀ d, decode 0x00000004 d = .ok .rdstat) ∧
  ∀ s : State, ∃ w : Word,
    exec .rdstat s = .next { s with responses := s.responses ++ [⟨true, .status w⟩] } ∧
    ∀ k, k < 32 → w.getLsbD k =
      (if k = 0 then s.fin
      else if k = 1 then decide (s.alg = .sha1)
      else if 8 ≤ k ∧ k ≤ 13 then s.bufUsed.getLsbD (k - 8)
      else if 16 ≤ k ∧ k ≤ 19 then s.fault.getLsbD (k - 16)
      else false)

/-- INIT is idempotent, and repeating RDSTAT, or a successful RDDIG, returns the same response and leaves the block as it was
(20_memory.md section 3, Side effects and idempotency, which the spec marks as derived). -/
def Obligations.RepeatedReadsAndInitsAgree : Prop :=
  (∀ (alg : Alg) (s t : State), exec (.init alg) s = .next t →
    exec (.init alg) t = .next { t with responses := t.responses ++ [⟨true, .empty⟩] }) ∧
  (∀ i s t, i = Instr.rdstat ∨ (i = Instr.rddig ∧ s.fin = true) → exec i s = .next t →
    ∃ r, r.ack = true ∧ t = { s with responses := s.responses ++ [r] } ∧
      exec i t = .next { s with responses := s.responses ++ [r, r] })

/-- A computation after INIT depends on ALG and on what follows, not on what came before: after INIT, the same further
actions of the host leave the same computation, and return the same digests, from any state as from a freshly reset block
(44_control.md section 1, Reuse after INIT, which the spec marks as derived). -/
def Obligations.ReuseAfterInitEqualsFreshBlock : Prop :=
  ∀ (alg : Alg) (s : State) (actions : List HostAction) (n : Nat),
    ∃ (t f : State) (new : List (List Byte)),
      Host.Core.run Sys2Proof.core (n + 1) { s with host := commandAction (.init alg) :: actions } = .next t ∧
      Host.Core.run Sys2Proof.core (n + 1) { State.reset with host := commandAction (.init alg) :: actions } = .next f ∧
      SameComputation f t ∧
      digestsOf t.responses = digestsOf s.responses ++ new ∧ digestsOf f.responses = new

/-! ## UPDATE (42_streaming_update.md) -/

/-- R265: UPDATE with any COUNT, 0 included, while FIN = 1 is refused with code 4, and changes nothing else. -/
def Obligations.UpdateRefusedAfterFinal : Prop :=
  ∀ (count : BitVec 7) (d : Lanes) (s : State), s.fin = true →
    exec (.update count d) s = .next { s with
      fault := if s.fault = 0 then 4 else s.fault
      responses := s.responses ++ [⟨false, .empty⟩] }

/-- UPDATE of a legal COUNT while FIN = 0 completes, and its effect on H, BUF and BUF_USED is that of Absorb's cases
(42_streaming_update.md section 3): a partial fill; a fill to exactly 64 with one compression and the leftover copied to
offset 0; a direct compression of 64 bytes; a copy into the empty buffer. Two clauses are inferences that R182 marks as its
own: that the loop of step 3 is the one direct compression at COUNT = 64 with an empty buffer ("With count <= 64 the loop
runs at most once, and only when BUF_USED was 0 and count = 64 [derived: from this rule]"), and that nothing is written
beyond offset 63 ("Every MemRead/MemWrite stays within offsets 0..63 [derived: from the case conditions]"; log 10,
DEDUCED). -/
def Obligations.UpdateFollowsAbsorbCases : Prop :=
  ∀ (count : BitVec 7) (d : Lanes) (s : State), count.toNat ≤ 64 → s.fin = false →
    ∃ t, exec (.update count d) s = .next t ∧
      (∀ a, 64 ≤ a → t.buf.readByte a = s.buf.readByte a) ∧
      let used := s.bufUsed.toNat
      let data := d.toList.take count.toNat
      if 0 < used ∧ count.toNat < 64 - used then
        t.h = s.h ∧ t.buf = s.buf.write used data ∧ t.bufUsed.toNat = used + count.toNat
      else if 0 < used then
        t.h = compress s.h ((s.buf.write used (data.take (64 - used))).read 0 64) ∧
        t.buf = (s.buf.write used (data.take (64 - used))).write 0 (data.drop (64 - used)) ∧
        t.bufUsed.toNat = count.toNat - (64 - used)
      else if count.toNat = 64 then
        t.h = compress s.h data ∧ t.buf = s.buf ∧ t.bufUsed = 0
      else
        t.h = s.h ∧ t.buf = s.buf.write 0 data ∧ t.bufUsed.toNat = count.toNat

/-- UPDATE as a function of the bytes waiting in BUF followed by the bytes it brings: fewer than 64 of them are kept; of 64 or
more the first 64 are compressed, once, and the rest is kept (42_streaming_update.md section 3). -/
def Obligations.UpdateExtendsWaitingBytes : Prop :=
  ∀ (count : BitVec 7) (d : Lanes) (s : State), count.toNat ≤ 64 → s.fin = false →
    ∃ t, exec (.update count d) s = .next t ∧
      let bytes := s.buf.read 0 s.bufUsed.toNat ++ d.toList.take count.toNat
      let kept := if bytes.length < 64 then bytes else bytes.drop 64
      t.h = (if bytes.length < 64 then s.h else compress s.h (bytes.take 64)) ∧
      t.bufUsed.toNat = kept.length ∧ t.buf.read 0 kept.length = kept

/-- The frame of a successful UPDATE: ALG, FIN and FAULT, the host's actions, and every byte of BUF outside the offsets it
stores to are unchanged, and one empty response with ack = 1 is added. It stores at BUF_USED and on, up to offset 63, and
what is left at offset 0 and on; with an empty buffer and 64 bytes it stores nothing (42_streaming_update.md sections 1, 3;
10_state.md section 2). -/
def Obligations.UpdateFrame : Prop :=
  ∀ (count : BitVec 7) (d : Lanes) (s t : State), count.toNat ≤ 64 → s.fin = false →
    exec (.update count d) s = .next t →
      t.alg = s.alg ∧ t.fin = s.fin ∧ t.fault = s.fault ∧ t.host = s.host ∧
      t.responses = s.responses ++ [⟨true, .empty⟩] ∧
      let used := s.bufUsed.toNat
      ∀ a,
        (if used + count.toNat < 64 then a < used ∨ used + count.toNat ≤ a
         else used + count.toNat - 64 ≤ a ∧ (a < used ∨ 64 ≤ a ∨ used = 0)) →
        t.buf.readByte a = s.buf.readByte a

/-- R181, R184: UPDATE adds 8 * COUNT to the counter: LO wraps at 2^32 and carries one into HI, HI wraps at 2^32, so L grows
mod 2^64 (the invariant R184 quotes), and no fault is raised; FINAL counts nothing. -/
def Obligations.UpdateCountsMessageBits : Prop :=
  (∀ s t : State, exec .final s = .next t → t.lo = s.lo ∧ t.hi = s.hi) ∧
  ∀ (count : BitVec 7) (d : Lanes) (s : State), count.toNat ≤ 64 → s.fin = false →
    ∃ t, exec (.update count d) s = .next t ∧
      t.lo.toNat = (s.lo.toNat + count.toNat * 8) % 2 ^ 32 ∧
      t.hi.toNat = (if 2 ^ 32 ≤ s.lo.toNat + count.toNat * 8 then (s.hi.toNat + 1) % 2 ^ 32 else s.hi.toNat) ∧
      t.hi.toNat * 2 ^ 32 + t.lo.toNat = (s.hi.toNat * 2 ^ 32 + s.lo.toNat + 8 * count.toNat) % 2 ^ 64 ∧
      t.fault = s.fault

/-- An UPDATE of no bytes while FIN = 0 changes nothing but the response it adds (42_streaming_update.md section 1, corner
cases). -/
def Obligations.EmptyUpdateChangesNothing : Prop :=
  ∀ (d : Lanes) (s : State), s.fin = false →
    exec (.update 0 d) s = .next { s with responses := s.responses ++ [⟨true, .empty⟩] }

/-- From the start of a computation, after any UPDATEs whose bytes concatenate to a message M of fewer than 2^61 bytes, the
state is a function of M alone: H is the compression of M's whole blocks from IV(ALG), BUF holds the rest, and L = 8 times the
length of M, however M was split (42_streaming_update.md section 4, which the spec marks as derived by induction). -/
def Obligations.AbsorbedStateDependsOnMessageOnly : Prop :=
  ∀ (alg : Alg) (s : State) (chunks : List (BitVec 7 × Lanes)) (rest : List HostAction),
    s.StartOf alg → (∀ c ∈ chunks, c.1.toNat ≤ 64) →
    s.host = (chunks.map fun c => commandAction (.update c.1 c.2)) ++ rest →
    let m := chunks.flatMap fun c => c.2.toList.take c.1.toNat
    m.length < 2 ^ 61 →
    ∃ t, Host.Core.run Sys2Proof.core chunks.length s = .next t ∧
      t.h = absorbedWords alg m ∧
      t.bufUsed.toNat = m.length % 64 ∧
      t.buf.read 0 (m.length % 64) = m.drop (64 * (m.length / 64)) ∧
      t.bitLength = 8 * m.length ∧
      t.fin = false ∧ t.fault = s.fault ∧ t.host = rest ∧
      t.responses = s.responses ++ List.replicate chunks.length ⟨true, .empty⟩

/-! ## FINAL and RDDIG (43_finalization.md) -/

/-- R266: FINAL while FIN = 1 is refused with code 5, and changes nothing else. -/
def Obligations.FinalRefusedAfterFinal : Prop :=
  ∀ s : State, s.fin = true →
    exec .final s = .next { s with
      fault := if s.fault = 0 then 5 else s.fault
      responses := s.responses ++ [⟨false, .empty⟩] }

/-- FINAL while FIN = 0 performs the steps of Pad in order, each a MemWrite or a compression of MemRead(0, 64)
(43_finalization.md section 1). That the bytes BUF held from BUF_USED on do not reach H is an inference R211 marks as its
own: they "are overwritten before they are read, so their unspecified values never reach a compression [derived: from this
rule]". -/
def Obligations.FinalFollowsPadSteps : Prop :=
  ∀ s : State, s.fin = false → ∃ t, exec .final s = .next t ∧
    (∀ m : Memory, (∀ a, a < s.bufUsed.toNat → m.readByte a = s.buf.readByte a) →
      ∃ u, exec .final { s with buf := m } = .next u ∧ u.h = t.h) ∧
    let lcap : BitVec 64 := s.hi ++ s.lo
    let used := s.bufUsed.toNat + 1
    let marked := s.buf.write s.bufUsed.toNat [0x80]
    let overflows := 64 - used < 8
    let full := marked.write used (List.replicate (64 - used) 0)
    let h := if overflows then compress s.h (full.read 0 64) else s.h
    let fresh := if overflows then full.write 0 (List.replicate 64 0) else marked
    let from' := if overflows then 0 else used
    let filled := fresh.write from' (List.replicate (56 - from') 0)
    let final := filled.write 56 (if s.alg = .md5 then leBytes 8 lcap else beBytes 8 lcap)
    t.buf = final ∧ t.h = compress h (final.read 0 64)

/-- FINAL while FIN = 0 compresses the waiting bytes, 0x80, zero bytes and the length in one block when BUF_USED <= 55 and in two
when BUF_USED >= 56; then FIN = 1, BUF_USED = 0, BUF holds the last block, and ALG, LO, HI and FAULT are unchanged, with no
byte outside offsets 0..63 changed (43_finalization.md section 1; the spec marks the boundary as derived). -/
def Obligations.FinalCompressesPaddedBytes : Prop :=
  ∀ s : State, s.fin = false → ∃ t, exec .final s = .next t ∧
    let bytes := s.buf.read 0 s.bufUsed.toNat
    let len := lengthField s.alg s.lengthBits
    let last :=
      if bytes.length ≤ 55 then bytes ++ [0x80] ++ zeroBytes (55 - bytes.length) ++ len else zeroBytes 56 ++ len
    let before :=
      if bytes.length ≤ 55 then s.h else compress s.h (bytes ++ [0x80] ++ zeroBytes (63 - bytes.length))
    t.h = compress before last ∧ t.buf.read 0 64 = last ∧ t.fin = true ∧ t.bufUsed = 0 ∧
      t.alg = s.alg ∧ t.lo = s.lo ∧ t.hi = s.hi ∧ t.fault = s.fault ∧ t.host = s.host ∧
      t.responses = s.responses ++ [⟨true, .empty⟩] ∧
      ∀ a, 64 ≤ a → t.buf.readByte a = s.buf.readByte a

/-- R54, R213: FINAL leaves the 64-bit bit count, as it stands when FINAL begins, in BUF[56..63], least-significant byte first
for MD5 and most-significant byte first for SHA-1; LO and HI keep it. -/
def Obligations.FinalWritesLengthField : Prop :=
  ∀ s : State, s.fin = false → ∃ t, exec .final s = .next t ∧ t.lo = s.lo ∧ t.hi = s.hi ∧
    ∀ k, k < 8 → (t.buf.readByte (56 + k)).toNat =
      (match s.alg with
        | .md5 => s.bitLength / 2 ^ (8 * k) % 256
        | .sha1 => s.bitLength / 2 ^ (8 * (7 - k)) % 256)

/-- R217: a successful FINAL leaves FIN = 1, BUF_USED = 0, in BUF the block it compressed last and in H the result, and LO, HI,
ALG and FAULT as they were; then H, ALG and FIN stay as they are through every command but INIT, so RDDIG keeps returning
the same digest. -/
def Obligations.FinalizedDigestIsKept : Prop :=
  (∀ s : State, s.fin = false → ∃ (t : State) (h : HashWords), exec .final s = .next t ∧
    t.h = compress h (t.buf.read 0 64) ∧ hashAlg h = s.alg ∧ t.fin = true ∧ t.bufUsed = 0 ∧ t.lo = s.lo ∧ t.hi = s.hi ∧
    t.alg = s.alg ∧ t.fault = s.fault) ∧
  ∀ (s t : State) (w : Word) (d : Lanes) (rest : List HostAction),
    s.host = .command w d :: rest → s.fin = true → (∀ alg, decode w d ≠ .ok (.init alg)) → step s = .next t →
      t.h = s.h ∧ t.alg = s.alg ∧ t.fin = true ∧ t.buf = s.buf ∧ t.bufUsed = s.bufUsed

/-- INIT alg, FINAL, RDDIG from any state returns the fixed digest of the empty message (43_finalization.md section 1, The
empty message; 44_control.md section 3; the spec marks the SHA-1 value and the agreement as derived). -/
def Obligations.EmptyMessageDigests : Prop :=
  ∀ (alg : Alg) (s : State), ∃ t1 t2 t3, exec (.init alg) s = .next t1 ∧ exec .final t1 = .next t2 ∧
    exec .rddig t2 = .next t3 ∧
    t3.responses = s.responses ++ [⟨true, .empty⟩, ⟨true, .empty⟩, ⟨true, .digest (emptyDigest alg)⟩]

/-- R267: RDDIG while FIN = 0 is refused with code 6, and changes nothing else. -/
def Obligations.RddigRefusedBeforeFinal : Prop :=
  ∀ s : State, s.fin = false →
    exec .rddig s = .next { s with
      fault := if s.fault = 0 then 6 else s.fault
      responses := s.responses ++ [⟨false, .empty⟩] }

/-- R55: RDDIG while FIN = 1 responds with the words of H in order, four bytes each, least-significant first for MD5
(16 bytes) and most-significant first for SHA-1 (20 bytes); no register and no byte of BUF changes. -/
def Obligations.RddigReturnsSerializedWords : Prop :=
  ∀ s : State, s.fin = true → ∃ bytes : List Byte,
    exec .rddig s = .next { s with responses := s.responses ++ [⟨true, .digest bytes⟩] } ∧
    bytes.length = 4 * (hashWordList s.h).length ∧
    bytes.length = (match s.alg with | .md5 => 16 | .sha1 => 20) ∧
    ∀ i j, i < (hashWordList s.h).length → j < 4 →
      bytes.getD (4 * i + j) 0 =
        ((hashWordList s.h).getD i 0).extractLsb' (match s.alg with | .md5 => 8 * j | .sha1 => 8 * (3 - j)) 8

/-! ## Faults (60_exceptions.md) -/

/-- R268: at most one fault is raised per command, the first failing check in the order 1, 2, 3, then the command's own state
check, as the numeric value of the word and FIN decide; a command that raises none is performed. -/
def Obligations.FirstFailingCheckDecidesFault : Prop :=
  faultOf 0x0000C1F2 false = some .reservedBits ∧
  ∀ (s : State) (w : Word) (d : Lanes) (rest : List HostAction), s.host = .command w d :: rest →
    match faultOf w s.fin with
    | some c => step s = .next { s with
        host := rest
        fault := if s.fault = 0 then faultValue c else s.fault
        responses := s.responses ++ [⟨false, .empty⟩] }
    | none => ∃ t data, step s = .next t ∧ t.responses = s.responses ++ [⟨true, data⟩] ∧ t.fault = s.fault

/-- R269: a command answered with ack = 0 changes no register but FAULT, and FAULT only if it was 0, then to the code 1 to 6 of
its cause; it returns no data. A command answered with ack = 1 does not change FAULT. -/
def Obligations.FaultedCommandChangesOnlyFault : Prop :=
  ∀ (s t : State) (w : Word) (d : Lanes) (rest : List HostAction) (r : Response),
    s.host = .command w d :: rest → step s = .next t → t.responses = s.responses ++ [r] →
      (r.ack = false →
        t = { s with host := rest, fault := t.fault, responses := s.responses ++ [⟨false, .empty⟩] } ∧
        (s.fault ≠ 0 → t.fault = s.fault) ∧
        (s.fault = 0 → ∃ c, faultOf w s.fin = some c ∧ t.fault = faultValue c ∧ 1 ≤ t.fault.toNat ∧ t.fault.toNat ≤ 6)) ∧
      (r.ack = true → t.fault = s.fault)

/-- R270: FAULT keeps the first fault's code through every step but a reset, which returns it to 0; and a block with FAULT set
performs every command as one without: same acknowledgement, same computation. -/
def Obligations.FaultIsStickyUntilReset : Prop :=
  (∀ s t : State, s.fault ≠ 0 → (∀ rest, s.host ≠ .reset :: rest) → step s = .next t → t.fault = s.fault) ∧
  (∀ (s t : State) (rest : List HostAction), s.host = .reset :: rest → step s = .next t → t.fault = 0) ∧
  (∀ (i : Instr) (s : State) (f : BitVec 4), ∃ t u r r',
    exec i s = .next t ∧ exec i { s with fault := f } = .next u ∧ SameComputation t u ∧ t.buf = u.buf ∧
    t.responses = s.responses ++ [r] ∧ u.responses = s.responses ++ [r'] ∧ r.ack = r'.ack)

/-- A run without a reset that ends with FAULT = 0 performed every command: FAULT was 0 at its start and every response it
added has ack = 1 (60_exceptions.md section 1, Clean run, which the spec marks as derived). -/
def Obligations.CleanRunPerformedEveryCommand : Prop :=
  ∀ (n : Nat) (s t : State), NoReset s.host → Host.Core.run Sys2Proof.core n s = .next t → t.Clean →
    s.Clean ∧ ∃ new, t.responses = s.responses ++ new ∧ (∀ r ∈ new, r.ack = true) ∧
      new.length = min n s.host.length

/-! ## The whole machine (10_state.md, 20_memory.md) -/

/-- Which command writes which register (10_state.md section 2, the read and write table, which the spec marks as derived):
ALG only INIT; H, BUF_USED neither RDSTAT nor RDDIG; BUF neither of these nor INIT; LO and HI neither of these nor FINAL; FIN
only INIT and FINAL. -/
def Obligations.OnlyTabledCommandsWriteRegisters : Prop :=
  ∀ (i : Instr) (s t : State), exec i s = .next t →
    (i.op ≠ .init → t.alg = s.alg) ∧
    (i.op = .rdstat ∨ i.op = .rddig → t.h = s.h ∧ t.bufUsed = s.bufUsed) ∧
    (i.op = .rdstat ∨ i.op = .rddig ∨ i.op = .init → t.buf = s.buf) ∧
    (i.op = .rdstat ∨ i.op = .rddig ∨ i.op = .final → t.lo = s.lo ∧ t.hi = s.hi) ∧
    (i.op ≠ .init → i.op ≠ .final → t.fin = s.fin) ∧
    t.host = s.host

/-- Every step keeps the invariant: BUF canonical with offsets 0..63 only, LO a multiple of 8, BUF_USED = (L / 8) mod 64 while
FIN = 0 and 0 once FIN = 1, FAULT at most 6 (10_state.md section 2, Invariants, which the spec marks as derived). -/
def Obligations.StepKeepsBlockInvariant : Prop :=
  ∀ s t : State, s.Inv → step s = .next t → t.Inv

/-- The reset state meets the invariant (10_state.md section 2). -/
def Obligations.ResetMeetsBlockInvariant : Prop := State.reset.Inv

/-- BUF bytes at offsets >= BUF_USED never reach a response or a register: two states that differ in nothing else step to states
that differ in nothing else, with the same responses. So the value the model gives unwritten bytes (log 4) cannot be observed
(10_state.md section 2; 92_eei_decisions.md D26). -/
def Obligations.StaleBufferBytesAreUnobservable : Prop :=
  ∀ s t : State, SameComputation s t → s.fault = t.fault → s.responses = t.responses →
    ∃ s' t', step s = .next s' ∧ step t = .next t' ∧ SameComputation s' t' ∧ s'.fault = t'.fault ∧
      s'.responses = t'.responses

/-! ## The compression transforms (40_md5_compression.md, 41_sha1_compression.md) -/

/-- R115 to R119: the four MD5 round functions, with the corners and the example each rule gives, and the sixteen steps that
use each. -/
def Obligations.Md5RoundFunctions : Prop :=
  (∀ (i : Nat) (b c d : Word), i < 64 →
    md5Fun i b c d =
      if i ≤ 15 then md5F b c d else if i ≤ 31 then md5G b c d else if i ≤ 47 then md5H b c d else md5I b c d) ∧
  (∀ b c d : Word,
    md5F b c d = (b &&& c) ||| (~~~b &&& d) ∧ md5G b c d = (d &&& b) ||| (~~~d &&& c) ∧
    md5H b c d = b ^^^ c ^^^ d ∧ md5I b c d = c ^^^ (b ||| ~~~d) ∧
    md5F 0xFFFFFFFF c d = c ∧ md5F 0 c d = d ∧ md5G b c 0xFFFFFFFF = b ∧ md5G b c 0 = c ∧
    md5H b b d = d ∧ md5I 0xFFFFFFFF c d = ~~~c) ∧
  md5F 0 0 0 = 0 ∧ md5H 0xFFFFFFFF 0xFFFFFFFF 0xFFFFFFFF = 0xFFFFFFFF ∧ md5I 0 0 0 = 0xFFFFFFFF ∧
  md5F 0xf0f0f0f0 0xcccccccc 0xaaaaaaaa = 0xcacacaca ∧ md5G 0xf0f0f0f0 0xcccccccc 0xaaaaaaaa = 0xe4e4e4e4 ∧
  md5H 0xf0f0f0f0 0xcccccccc 0xaaaaaaaa = 0x96969696 ∧ md5I 0xf0f0f0f0 0xcccccccc 0xaaaaaaaa = 0x39393939

/-- rotl moves bit j to bit (j + n) mod 32 (40_md5_compression.md section 2; the spec takes the definition from general
knowledge, log 12). -/
def Obligations.RotlMovesEveryBit : Prop :=
  ∀ (x : Word) (n j : Nat), 1 ≤ n → n ≤ 31 → j < 32 → (rotl x n).getLsbD ((j + n) % 32) = x.getLsbD j

/-- R52, R53: byte k of message word j is byte 4j + k of the block, counted from the least-significant byte for MD5 and from
the most-significant byte for SHA-1. -/
def Obligations.MessageWordsTakeBlockBytes : Prop :=
  ∀ (blk : List Byte) (j k : Nat), blk.length = 64 → j ≤ 15 → k < 4 →
    ((md5MessageWords blk).getD j 0).extractLsb' (8 * k) 8 = blk.getD (4 * j + k) 0 ∧
    ((sha1MessageWords blk).getD j 0).extractLsb' (8 * (3 - k)) 8 = blk.getD (4 * j + k) 0

/-- One MD5 step, the tables' step numbers and formulas, and CompressMD5 as 64 steps and the addition of Hin
(40_md5_compression.md sections 4, 5; the spec marks s, g and the step formula as general knowledge, log 12). -/
def Obligations.CompressMd5RunsSixtyFourSteps : Prop :=
  (∀ (x : List Word) (w : Md5Words) (i : Nat), i < 64 → ∃ tmp : Word,
    tmp = w.a + (if i < 16 then md5F w.b w.c w.d else if i < 32 then md5G w.b w.c w.d
      else if i < 48 then md5H w.b w.c w.d else md5I w.b w.c w.d) +
      x.getD (if i < 16 then i else if i < 32 then (5 * i + 1) % 16 else if i < 48 then (3 * i + 5) % 16
        else 7 * i % 16) 0 + md5T.getD i 0 ∧
    md5Step x w i = ⟨w.d, w.b + rotl tmp (([7, 12, 17, 22, 5, 9, 14, 20, 4, 11, 16, 23, 6, 10, 15, 21] : List Nat).getD
      (4 * (i / 16) + i % 4) 0), w.b, w.c⟩) ∧
  md5T.length = 64 ∧
  ∀ (hin : Md5Words) (blk : List Byte),
    md5Rounds 0 hin blk = hin ∧
    (∀ i, md5Rounds (i + 1) hin blk = md5Step (md5MessageWords blk) (md5Rounds i hin blk) i) ∧
    compressMd5 hin blk = ⟨hin.a + (md5Rounds 64 hin blk).a, hin.b + (md5Rounds 64 hin blk).b,
      hin.c + (md5Rounds 64 hin blk).c, hin.d + (md5Rounds 64 hin blk).d⟩

/-- R151, R152: the schedule has 80 words: the 16 big-endian words of the block, then the recurrence. -/
def Obligations.Sha1ScheduleFollowsRecurrence : Prop :=
  ∀ blk : List Byte, (sha1Schedule blk).length = 80 ∧
    (∀ j, j ≤ 15 → (sha1Schedule blk).getD j 0 = be32 blk (4 * j)) ∧
    ∀ t, 16 ≤ t → t ≤ 79 → (sha1Schedule blk).getD t 0 =
      rotl ((sha1Schedule blk).getD (t - 3) 0 ^^^ (sha1Schedule blk).getD (t - 8) 0 ^^^
        (sha1Schedule blk).getD (t - 14) 0 ^^^ (sha1Schedule blk).getD (t - 16) 0) 1

/-- One SHA-1 step with its round function and constant, and CompressSHA1 as 80 steps and the addition of Hin
(41_sha1_compression.md sections 2, 3; the spec marks f, K and the step formula as general knowledge, log 12). -/
def Obligations.CompressSha1RunsEightySteps : Prop :=
  (∀ (sched : List Word) (w : Sha1Words) (t : Nat), t < 80 →
    sha1Step sched w t =
      ⟨rotl w.a 5 +
          (if t < 20 then (w.b &&& w.c) ||| (~~~w.b &&& w.d) else if t < 40 then w.b ^^^ w.c ^^^ w.d
            else if t < 60 then (w.b &&& w.c) ||| (w.b &&& w.d) ||| (w.c &&& w.d) else w.b ^^^ w.c ^^^ w.d) +
          w.e + sched.getD t 0 +
          (([0x5A827999, 0x6ED9EBA1, 0x8F1BBCDC, 0xCA62C1D6] : List Word).getD (t / 20) 0),
        w.a, rotl w.b 30, w.c, w.d⟩) ∧
  ∀ (hin : Sha1Words) (blk : List Byte),
    sha1Rounds 0 hin blk = hin ∧
    (∀ t, sha1Rounds (t + 1) hin blk = sha1Step (sha1Schedule blk) (sha1Rounds t hin blk) t) ∧
    compressSha1 hin blk = ⟨hin.a + (sha1Rounds 80 hin blk).a, hin.b + (sha1Rounds 80 hin blk).b,
      hin.c + (sha1Rounds 80 hin blk).c, hin.d + (sha1Rounds 80 hin blk).d, hin.e + (sha1Rounds 80 hin blk).e⟩

/-! ## The host's pseudo-instructions (30_encoding.md section 3, 44_control.md section 3) -/

/-- ABSORB expands to floor(m / 64) UPDATEs of 64 bytes and one of the rest if there is a rest; every command carries at most 64
bytes, and together they carry the byte string in order (30_encoding.md section 3). -/
def Obligations.AbsorbExpansionCarriesBytes : Prop :=
  ∀ m : List Byte, ∃ chunks : List (BitVec 7 × Lanes),
    absorbActions m = chunks.map (fun c => commandAction (.update c.1 c.2)) ∧
    (∀ c ∈ chunks, 1 ≤ c.1.toNat ∧ c.1.toNat ≤ 64) ∧
    (∀ j c, chunks[j]? = some c → j < m.length / 64 → c.1 = 64) ∧
    chunks.length = m.length / 64 + (if m.length % 64 = 0 then 0 else 1) ∧
    (chunks.flatMap fun c => c.2.toList.take c.1.toNat) = m

/-- HASH's cases: a null pointer or an inverted range answers DIGEST_BYTES zero bytes, an empty range EMPTY(alg), all without a
command; any other range issues INIT, its ABSORB expansion, FINAL and RDDIG (44_control.md section 3). -/
def Obligations.HashPlanFollowsCases : Prop :=
  ∀ alg : Alg,
    hashPlan alg .nullPointer = .answer (List.replicate (match alg with | .md5 => 16 | .sha1 => 20) 0) ∧
    hashPlan alg .inverted = .answer (List.replicate (match alg with | .md5 => 16 | .sha1 => 20) 0) ∧
    hashPlan alg (.bytes []) = .answer (emptyDigest alg) ∧
    ∀ m, m ≠ [] → hashPlan alg (.bytes m) = .issue
      (commandAction (.init alg) :: (absorbActions m ++ [commandAction .final, commandAction .rddig]))

/-- The block computes the digest of the whole message: from any state, the commands of HASH on a message of fewer than 2^61
bytes end in an RDDIG response that is the one-piece digest: the padded message compressed block by block from IV(alg) and
serialized (42_streaming_update.md section 4; 43_finalization.md; 44_control.md section 3). -/
def Obligations.HashCommandsReturnMessageDigest : Prop :=
  ∀ (alg : Alg) (m : List Byte) (s : State) (rest : List HostAction), m.length < 2 ^ 61 →
    s.host = hashActions alg m ++ rest →
    ∃ t before, Host.Core.run Sys2Proof.core (hashActions alg m).length s = .next t ∧ t.host = rest ∧
      t.fault = s.fault ∧ t.responses = before ++ [⟨true, .digest (digestOf alg m)⟩] ∧
      before = s.responses ++ List.replicate ((hashActions alg m).length - 1) ⟨true, .empty⟩

/-- Flattening wide elements keeps their order and gives byte j of an element of n bytes in the host's native order: counted
from the least-significant byte on a little-endian host, from the most-significant on a big-endian one
(44_control.md section 3; the byte order is an argument, log 11). -/
def Obligations.WideElementsFlattenInNativeOrder : Prop :=
  ∀ (order : Config.ByteOrder) (n : Nat) (units : List (BitVec (8 * n))),
    (flattenWide order n units).length = n * units.length ∧
    ∀ i j, i < units.length → j < n →
      (flattenWide order n units).getD (n * i + j) 0 =
        (units.getD i 0).extractLsb' (match order with | .little => 8 * j | .big => 8 * (n - 1 - j)) 8
end

