-- ==== Sys2Proof/Laws/Bytes.lean ====
section
/-! SUPPORT. Lengths and bytes of the byte sequences: byte conversions, message bytes, padding, serialization, blocks. -/

namespace Sys2Proof.Machine

@[simp] theorem leBytes_length {w : Nat} (n : Nat) (v : BitVec w) : (leBytes n v).length = n := by simp [leBytes]

@[simp] theorem beBytes_length {w : Nat} (n : Nat) (v : BitVec w) : (beBytes n v).length = n := by simp [beBytes]

theorem leBytes_getD {w : Nat} (n : Nat) (v : BitVec w) (j : Nat) (h : j < n) :
    (leBytes n v).getD j 0 = v.extractLsb' (8 * j) 8 := by simp [leBytes, List.getD_eq_getElem?_getD, h]

theorem beBytes_getD {w : Nat} (n : Nat) (v : BitVec w) (j : Nat) (h : j < n) :
    (beBytes n v).getD j 0 = v.extractLsb' (8 * (n - 1 - j)) 8 := by
  simp [beBytes, List.getD_eq_getElem?_getD, h]

@[simp] theorem zeroBytes_length (n : Nat) : (zeroBytes n).length = n := by simp [zeroBytes]

@[simp] theorem zeroBytes_zero : zeroBytes 0 = [] := rfl

theorem zeroBytes_add (n k : Nat) : zeroBytes (n + k) = zeroBytes n ++ zeroBytes k :=
  List.replicate_add ..

@[simp] theorem lengthField_length (alg : Alg) (len : BitVec 64) : (lengthField alg len).length = 8 := by
  cases alg <;> simp [lengthField]

@[simp] theorem messageBytes_length (count : BitVec 7) (data : Lanes) :
    (messageBytes count data).length = min count.toNat 64 := by simp [messageBytes]

/-- The digest is 16 bytes for MD5 and 20 for SHA-1 (R7, D23). -/
@[simp] theorem serialize_length (h : HashWords) : (serialize h).length = Config.digestBytes (hashAlg h) := by
  cases h <;> simp [serialize, hashAlg, Config.digestBytes]

theorem lanesOf_toList_take (bytes : List Byte) (h : bytes.length ≤ 64) :
    (lanesOf bytes).toList.take bytes.length = bytes := by
  refine List.ext_getElem (by simp [h]) fun j h1 h2 => ?_
  simp [lanesOf, byteAt, List.getD_eq_getElem?_getD, h2]

/-- The UPDATE the host sends for at most 64 bytes carries exactly these bytes (R91). -/
theorem messageBytes_lanesOf (bytes : List Byte) (h : bytes.length ≤ 64) :
    messageBytes (BitVec.ofNat 7 bytes.length) (lanesOf bytes) = bytes := by
  have : (BitVec.ofNat 7 bytes.length).toNat = bytes.length := by
    rw [BitVec.toNat_ofNat]; exact Nat.mod_eq_of_lt (by omega)
  rw [messageBytes, this, lanesOf_toList_take bytes h]

end Sys2Proof.Machine
end

