-- ==== Sys2Proof/Laws/Memory.lean ====
section
/-! SUPPORT. The laws of BUF: a read after a write gives the bytes written, a write leaves every other byte alone, every
write keeps the canonical form, and equal reads of canonical buffers are equal buffers (R50, R51). -/

namespace Sys2Proof.Machine

/-! ## One byte -/

@[simp] theorem readByte_nil (a : Nat) : Memory.readByte [] a = unlistedByte := rfl

theorem readByte_cons (c : Host.Cell) (m : Memory) (a : Nat) :
    Memory.readByte (c :: m) a = if c.1 = a then c.2 else Memory.readByte m a := by
  by_cases h : c.1 = a <;> simp [Memory.readByte, h]

theorem readByte_append (m m' : Memory) (a : Nat) (h : ∀ c ∈ m, c.1 ≠ a) :
    Memory.readByte (m ++ m') a = Memory.readByte m' a := by
  induction m with
  | nil => rfl
  | cons c m ih =>
    rw [List.cons_append, readByte_cons, if_neg (h c (by simp)), ih fun d hd => h d (by simp [hd])]

theorem readByte_filter (p : Host.Cell → Bool) (m : Memory) (a : Nat) (h : ∀ v, p (a, v) = true) :
    Memory.readByte (m.filter p) a = Memory.readByte m a := by
  induction m with
  | nil => rfl
  | cons c m ih =>
    obtain ⟨b, v⟩ := c
    by_cases hb : b = a
    · subst hb; simp [h, readByte_cons]
    · by_cases hp : p (b, v) = true <;> simp [hp, readByte_cons, hb, ih]

theorem readByte_byteCells_append (a : Nat) (v : Byte) (m : Memory) (h : ∀ c ∈ m, c.1 ≠ a) :
    Memory.readByte (byteCells a v ++ m) a = v := by
  unfold byteCells
  split
  next hv => rw [hv, ← List.append_nil ([] ++ m), List.nil_append, readByte_append m [] a h, readByte_nil]
  next => simp [readByte_cons]

theorem readByte_writeByte_same (m : Memory) (a : Nat) (v : Byte) (ha : a < 64) :
    (m.writeByte a v).readByte a = v := by
  rw [Memory.writeByte, if_pos ha, List.append_assoc, readByte_append _ _ a (by simp; omega),
    readByte_byteCells_append a v _ (by simp; omega)]

theorem readByte_writeByte_ne (m : Memory) (a b : Nat) (v : Byte) (hab : b ≠ a) :
    (m.writeByte a v).readByte b = m.readByte b := by
  unfold Memory.writeByte
  split
  next =>
    have hcells : ∀ c ∈ byteCells a v, c.1 ≠ b := by
      unfold byteCells; split <;> simp [Ne.symm hab]
    rcases Nat.lt_or_gt_of_ne hab with h | h
    · have hsplit : ∀ m' : Memory, (∀ c ∈ m', c.1 ≠ b) →
          Memory.readByte (m.filter (fun c => decide (c.1 < a)) ++ m') b = m.readByte b := by
        intro m' hm'
        rw [← readByte_filter (fun c => decide (c.1 < a)) m b (by simp [h])]
        induction m.filter (fun c => decide (c.1 < a)) with
        | nil => simpa using readByte_append m' [] b hm'
        | cons c l ih => simp only [List.cons_append, readByte_cons, ih]
      rw [List.append_assoc]
      refine hsplit _ fun c hc => ?_
      rcases List.mem_append.1 hc with hc | hc
      · exact hcells c hc
      · simp only [List.mem_filter, decide_eq_true_eq] at hc; omega
    · rw [List.append_assoc, readByte_append _ _ b (by simp; omega), readByte_append _ _ b hcells,
        readByte_filter _ _ _ (by simp [h])]
  next => rfl

theorem readByte_writeByte (m : Memory) (a b : Nat) (v : Byte) (ha : a < 64) :
    (m.writeByte a v).readByte b = if b = a then v else m.readByte b := by
  split
  next h => rw [h, readByte_writeByte_same m a v ha]
  next h => exact readByte_writeByte_ne m a b v h

/-! ## A run of bytes -/

@[simp] theorem write_nil (m : Memory) (off : Nat) : m.write off [] = m := rfl

theorem write_cons (m : Memory) (off : Nat) (v : Byte) (vs : List Byte) :
    m.write off (v :: vs) = (m.writeByte off v).write (off + 1) vs := rfl

theorem write_append (m : Memory) (off : Nat) (vs ws : List Byte) :
    m.write off (vs ++ ws) = (m.write off vs).write (off + vs.length) ws := by
  induction vs generalizing m off with
  | nil => rfl
  | cons v vs ih => simp [write_cons, ih, Nat.add_assoc, Nat.add_comm 1]

/-- A byte outside the run written reads as before. -/
theorem readByte_write_outside (m : Memory) (off : Nat) (vs : List Byte) (a : Nat)
    (h : a < off ∨ off + vs.length ≤ a) : (m.write off vs).readByte a = m.readByte a := by
  induction vs generalizing m off with
  | nil => rfl
  | cons v vs ih =>
    simp only [List.length_cons] at h
    rw [write_cons, ih _ _ (by omega), readByte_writeByte_ne _ _ _ _ (by omega)]

/-- A byte of the run written reads as the byte written. -/
theorem readByte_write_inside (m : Memory) (off : Nat) (vs : List Byte) (j : Nat) (hj : j < vs.length)
    (hb : off + vs.length ≤ 64) : (m.write off vs).readByte (off + j) = vs.getD j 0 := by
  induction vs generalizing m off j with
  | nil => simp at hj
  | cons v vs ih =>
    simp only [List.length_cons] at hj hb
    rw [write_cons]
    cases j with
    | zero =>
      rw [readByte_write_outside _ _ _ _ (by omega)]
      exact readByte_writeByte_same m off v (by omega)
    | succ j =>
      have := ih (m.writeByte off v) (off + 1) j (by omega) (by omega)
      rw [show off + (j + 1) = off + 1 + j by omega, this]; rfl

theorem readByte_write (m : Memory) (off : Nat) (vs : List Byte) (a : Nat) (hb : off + vs.length ≤ 64) :
    (m.write off vs).readByte a =
      if off ≤ a ∧ a < off + vs.length then vs.getD (a - off) 0 else m.readByte a := by
  split
  next h =>
    have := readByte_write_inside m off vs (a - off) (by omega) hb
    rwa [show off + (a - off) = a by omega] at this
  next h => exact readByte_write_outside m off vs a (by omega)

@[simp] theorem read_length (m : Memory) (off n : Nat) : (m.read off n).length = n := by simp [Memory.read]

@[simp] theorem read_zero (m : Memory) (off : Nat) : m.read off 0 = [] := rfl

theorem read_getD (m : Memory) (off n j : Nat) (hj : j < n) : (m.read off n).getD j 0 = m.readByte (off + j) := by
  simp [Memory.read, List.getD_eq_getElem?_getD, hj]

theorem read_append (m : Memory) (off n k : Nat) : m.read off (n + k) = m.read off n ++ m.read (off + n) k := by
  simp [Memory.read, List.range_add, List.map_append, Function.comp_def, Nat.add_assoc]

theorem read_congr (m m' : Memory) (off n : Nat) (h : ∀ a, off ≤ a → a < off + n → m.readByte a = m'.readByte a) :
    m.read off n = m'.read off n := by
  refine List.map_congr_left fun j hj => h _ (by omega) ?_
  have := List.mem_range.1 hj
  omega

/-- MemRead of the run that MemWrite wrote gives the bytes written (R51). -/
theorem read_write_same (m : Memory) (off : Nat) (vs : List Byte) (hb : off + vs.length ≤ 64) :
    (m.write off vs).read off vs.length = vs := by
  refine List.ext_getElem (by simp) fun j h1 h2 => ?_
  have := readByte_write_inside m off vs j h2 hb
  simp only [Memory.read, List.getElem_map, List.getElem_range, this]
  simp [List.getD_eq_getElem?_getD, h2]

/-- MemRead of a run that MemWrite did not touch is as before (R51). -/
theorem read_write_outside (m : Memory) (off : Nat) (vs : List Byte) (off' n : Nat)
    (h : off' + n ≤ off ∨ off + vs.length ≤ off') : (m.write off vs).read off' n = m.read off' n :=
  read_congr _ _ _ _ fun a h1 h2 => readByte_write_outside m off vs a (by omega)

/-- After bytes are written behind a run, the run and they read as one. -/
theorem read_write_behind (m : Memory) (off : Nat) (vs : List Byte) (hb : off + vs.length ≤ 64) :
    (m.write off vs).read 0 (off + vs.length) = m.read 0 off ++ vs := by
  rw [read_append, read_write_outside _ _ _ _ _ (by omega), Nat.zero_add, read_write_same _ _ _ hb]

/-! ## The canonical form -/

/-- What the canonical form from `lo` on says, entry by entry. -/
theorem wfFrom_iff (lo : Nat) (m : Memory) :
    Memory.wfFrom lo m = true ↔
      m.Pairwise (fun c d => c.1 < d.1) ∧ ∀ c ∈ m, lo ≤ c.1 ∧ c.1 < 64 ∧ c.2 ≠ unlistedByte := by
  induction m generalizing lo with
  | nil => simp [Memory.wfFrom]
  | cons c m ih =>
    obtain ⟨a, v⟩ := c
    simp only [Memory.wfFrom, Bool.and_eq_true, decide_eq_true_eq, Bool.not_eq_true', beq_eq_false_iff_ne, ih,
      List.pairwise_cons, List.mem_cons, forall_eq_or_imp]
    constructor
    · rintro ⟨⟨⟨h1, h2⟩, h3⟩, h4, h5⟩
      exact ⟨⟨fun d hd => by have := (h5 d hd).1; omega, h4⟩, ⟨h1, h2, h3⟩,
        fun d hd => ⟨by have := (h5 d hd).1; omega, (h5 d hd).2⟩⟩
    · rintro ⟨⟨h1, h2⟩, ⟨h3, h4, h5⟩, h6⟩
      exact ⟨⟨⟨h3, h4⟩, h5⟩, h2, fun d hd => ⟨by have := h1 d hd; omega, (h6 d hd).2⟩⟩

theorem wf_iff (m : Memory) :
    m.wf = true ↔ m.Pairwise (fun c d => c.1 < d.1) ∧ ∀ c ∈ m, c.1 < 64 ∧ c.2 ≠ unlistedByte := by
  simp [Memory.wf, wfFrom_iff]

@[simp] theorem wf_nil : Memory.wf [] = true := rfl

/-- Writing a byte keeps the canonical form. -/
theorem wf_writeByte (m : Memory) (a : Nat) (v : Byte) (h : m.wf = true) : (m.writeByte a v).wf = true := by
  unfold Memory.writeByte
  split
  next ha =>
    rw [wf_iff] at h ⊢
    obtain ⟨hp, hm⟩ := h
    have hcell : ∀ c ∈ byteCells a v, c.1 = a ∧ c.2 = v ∧ v ≠ unlistedByte := by
      unfold byteCells; split <;> simp_all
    constructor
    · rw [List.pairwise_append, List.pairwise_append]
      refine ⟨⟨hp.filter _, ?_, ?_⟩, hp.filter _, ?_⟩
      · unfold byteCells; split <;> simp
      · intro c hc d hd
        simp only [List.mem_filter, decide_eq_true_eq] at hc
        have := (hcell d hd).1; omega
      · intro c hc d hd
        simp only [List.mem_append, List.mem_filter, decide_eq_true_eq] at hc hd
        rcases hc with hc | hc
        · omega
        · have := (hcell c hc).1; omega
    · intro c hc
      simp only [List.mem_append, List.mem_filter] at hc
      rcases hc with (hc | hc) | hc
      · exact hm c hc.1
      · obtain ⟨h1, h2, h3⟩ := hcell c hc
        exact ⟨by omega, by rw [h2]; exact h3⟩
      · exact hm c hc.1
  next => exact h

/-- MemWrite keeps the canonical form. -/
theorem wf_write (m : Memory) (off : Nat) (vs : List Byte) (h : m.wf = true) : (m.write off vs).wf = true := by
  induction vs generalizing m off with
  | nil => exact h
  | cons v vs ih => exact ih _ _ (wf_writeByte _ _ _ h)

/-- Canonical buffers that read the same are the same buffer. -/
theorem wf_ext (m m' : Memory) (h : m.wf = true) (h' : m'.wf = true)
    (hr : ∀ a, m.readByte a = m'.readByte a) : m = m' := by
  rw [wf_iff] at h h'
  induction m generalizing m' with
  | nil =>
    cases m' with
    | nil => rfl
    | cons d m' =>
      have := hr d.1
      rw [readByte_nil, readByte_cons, if_pos rfl] at this
      exact absurd this.symm (h'.2 d (by simp)).2
  | cons c m ih =>
    cases m' with
    | nil =>
      have := hr c.1
      rw [readByte_nil, readByte_cons, if_pos rfl] at this
      exact absurd this (h.2 c (by simp)).2
    | cons d m' =>
      have fresh : ∀ (l : Memory) (b : Nat), (∀ e ∈ l, b < e.1) → Memory.readByte l b = unlistedByte := by
        intro l b hb
        rw [← List.append_nil l, readByte_append l [] b fun e he => by have := hb e he; omega, readByte_nil]
      obtain ⟨hp, hm⟩ := h
      obtain ⟨hp', hm'⟩ := h'
      rw [List.pairwise_cons] at hp hp'
      have hkey : c.1 = d.1 := by
        rcases Nat.lt_trichotomy c.1 d.1 with hlt | heq | hgt
        · have := hr c.1
          rw [readByte_cons, if_pos rfl, fresh (d :: m') c.1] at this
          · exact absurd this (hm c (by simp)).2
          · intro e he
            rcases List.mem_cons.1 he with rfl | he
            · exact hlt
            · have := hp'.1 e he; omega
        · exact heq
        · have := hr d.1
          rw [readByte_cons d m' d.1, if_pos rfl, fresh (c :: m) d.1] at this
          · exact absurd this.symm (hm' d (by simp)).2
          · intro e he
            rcases List.mem_cons.1 he with rfl | he
            · exact hgt
            · have := hp.1 e he; omega
      have hval : c.2 = d.2 := by
        have := hr c.1
        rwa [readByte_cons, if_pos rfl, readByte_cons, if_pos hkey.symm] at this
      have hcd : c = d := Prod.ext hkey hval
      subst hcd
      rw [ih m' ⟨hp.2, fun e he => hm e (by simp [he])⟩ ⟨hp'.2, fun e he => hm' e (by simp [he])⟩ fun a => ?_]
      by_cases ha : c.1 = a
      · subst ha
        rw [fresh m c.1 hp.1, fresh m' c.1 hp'.1]
      · have := hr a
        rwa [readByte_cons, readByte_cons, if_neg ha, if_neg ha] at this

end Sys2Proof.Machine
end

