-- ==== Sys2Proof/Laws/PerInstr.lean ====
section
/-! SUPPORT. Statements about every instruction, one lemma per constructor: an encoded command is a word of its
operation's row of the command table (R87). -/

namespace Sys2Proof.Laws.EncodeInRow

/-- The encoded word matches the row of the command's operation (R87). -/
def Statement (i : Instr) : Prop := matchesRow (encode i) i.op = true

theorem init (alg : Alg) : Statement (.init alg) := by cases alg <;> rfl

theorem update (count : BitVec 7) (data : Lanes) : Statement (.update count data) := by
  have h : ∀ c : BitVec 7,
      (0x00000002#32 ||| (c.setWidth 32 <<< 8)) &&& 0xFFFF80FF#32 = 0x00000002#32 := by decide
  simp [Statement, matchesRow, encode, Instr.op, commandRow, h]

theorem final : Statement .final := rfl

theorem rdstat : Statement .rdstat := rfl

theorem rddig : Statement .rddig := rfl

end Sys2Proof.Laws.EncodeInRow
end

