-- ==== Sys2Proof/Laws/State.lean ====
section
/-! SUPPORT. One lemma per field per named update of the state, each true by unfolding the update once; and what the
views of a state (ALG, L, the 64-bit counter) make of an update. -/

namespace Sys2Proof.Machine

/-! ## respond -/

@[simp] theorem respond_h (data : RespData) (s : State) : (respond data s).h = s.h := rfl
@[simp] theorem respond_buf (data : RespData) (s : State) : (respond data s).buf = s.buf := rfl
@[simp] theorem respond_bufUsed (data : RespData) (s : State) : (respond data s).bufUsed = s.bufUsed := rfl
@[simp] theorem respond_lo (data : RespData) (s : State) : (respond data s).lo = s.lo := rfl
@[simp] theorem respond_hi (data : RespData) (s : State) : (respond data s).hi = s.hi := rfl
@[simp] theorem respond_fin (data : RespData) (s : State) : (respond data s).fin = s.fin := rfl
@[simp] theorem respond_fault (data : RespData) (s : State) : (respond data s).fault = s.fault := rfl
@[simp] theorem respond_host (data : RespData) (s : State) : (respond data s).host = s.host := rfl
@[simp] theorem respond_responses (data : RespData) (s : State) :
    (respond data s).responses =
      s.responses ++ [⟨true, data⟩] := rfl

/-! ## raiseFault -/

@[simp] theorem raiseFault_h (c : FaultCode) (s : State) : (raiseFault c s).h = s.h := rfl
@[simp] theorem raiseFault_buf (c : FaultCode) (s : State) : (raiseFault c s).buf = s.buf := rfl
@[simp] theorem raiseFault_bufUsed (c : FaultCode) (s : State) : (raiseFault c s).bufUsed = s.bufUsed := rfl
@[simp] theorem raiseFault_lo (c : FaultCode) (s : State) : (raiseFault c s).lo = s.lo := rfl
@[simp] theorem raiseFault_hi (c : FaultCode) (s : State) : (raiseFault c s).hi = s.hi := rfl
@[simp] theorem raiseFault_fin (c : FaultCode) (s : State) : (raiseFault c s).fin = s.fin := rfl
@[simp] theorem raiseFault_fault (c : FaultCode) (s : State) : (raiseFault c s).fault = latch s.fault c := rfl
@[simp] theorem raiseFault_host (c : FaultCode) (s : State) : (raiseFault c s).host = s.host := rfl
@[simp] theorem raiseFault_responses (c : FaultCode) (s : State) :
    (raiseFault c s).responses =
      s.responses ++ [⟨false, .empty⟩] := rfl

/-! ## startComputation -/

@[simp] theorem startComputation_h (alg : Alg) (s : State) : (startComputation alg s).h = iv alg := rfl
@[simp] theorem startComputation_buf (alg : Alg) (s : State) : (startComputation alg s).buf = s.buf := rfl
@[simp] theorem startComputation_bufUsed (alg : Alg) (s : State) : (startComputation alg s).bufUsed = 0 := rfl
@[simp] theorem startComputation_lo (alg : Alg) (s : State) : (startComputation alg s).lo = 0 := rfl
@[simp] theorem startComputation_hi (alg : Alg) (s : State) : (startComputation alg s).hi = 0 := rfl
@[simp] theorem startComputation_fin (alg : Alg) (s : State) : (startComputation alg s).fin = false := rfl
@[simp] theorem startComputation_fault (alg : Alg) (s : State) : (startComputation alg s).fault = s.fault := rfl
@[simp] theorem startComputation_host (alg : Alg) (s : State) : (startComputation alg s).host = s.host := rfl
@[simp] theorem startComputation_responses (alg : Alg) (s : State) :
    (startComputation alg s).responses =
      s.responses := rfl

/-! ## hardwareReset -/

@[simp] theorem hardwareReset_h (s : State) : (hardwareReset s).h = iv .md5 := rfl
@[simp] theorem hardwareReset_buf (s : State) : (hardwareReset s).buf = [] := rfl
@[simp] theorem hardwareReset_bufUsed (s : State) : (hardwareReset s).bufUsed = 0 := rfl
@[simp] theorem hardwareReset_lo (s : State) : (hardwareReset s).lo = 0 := rfl
@[simp] theorem hardwareReset_hi (s : State) : (hardwareReset s).hi = 0 := rfl
@[simp] theorem hardwareReset_fin (s : State) : (hardwareReset s).fin = false := rfl
@[simp] theorem hardwareReset_fault (s : State) : (hardwareReset s).fault = 0 := rfl
@[simp] theorem hardwareReset_host (s : State) : (hardwareReset s).host = s.host := rfl
@[simp] theorem hardwareReset_responses (s : State) : (hardwareReset s).responses = s.responses := rfl

/-! ## counterAdd -/

@[simp] theorem counterAdd_h (n : Nat) (s : State) : (counterAdd n s).h = s.h := rfl
@[simp] theorem counterAdd_buf (n : Nat) (s : State) : (counterAdd n s).buf = s.buf := rfl
@[simp] theorem counterAdd_bufUsed (n : Nat) (s : State) : (counterAdd n s).bufUsed = s.bufUsed := rfl
@[simp] theorem counterAdd_lo (n : Nat) (s : State) :
    (counterAdd n s).lo =
      BitVec.ofNat 32 (s.lo.toNat + n * 8) := rfl
@[simp] theorem counterAdd_hi (n : Nat) (s : State) :
    (counterAdd n s).hi =
      if 2 ^ 32 ≤ s.lo.toNat + n * 8 then s.hi + 1 else s.hi := rfl
@[simp] theorem counterAdd_fin (n : Nat) (s : State) : (counterAdd n s).fin = s.fin := rfl
@[simp] theorem counterAdd_fault (n : Nat) (s : State) : (counterAdd n s).fault = s.fault := rfl
@[simp] theorem counterAdd_host (n : Nat) (s : State) : (counterAdd n s).host = s.host := rfl
@[simp] theorem counterAdd_responses (n : Nat) (s : State) : (counterAdd n s).responses = s.responses := rfl

/-! ## finalize -/

@[simp] theorem finalize_h (s : State) : (finalize s).h = (pad s).h := rfl
@[simp] theorem finalize_buf (s : State) : (finalize s).buf = (pad s).buf := rfl
@[simp] theorem finalize_bufUsed (s : State) : (finalize s).bufUsed = 0 := rfl
@[simp] theorem finalize_lo (s : State) : (finalize s).lo = s.lo := rfl
@[simp] theorem finalize_hi (s : State) : (finalize s).hi = s.hi := rfl
@[simp] theorem finalize_fin (s : State) : (finalize s).fin = true := rfl
@[simp] theorem finalize_fault (s : State) : (finalize s).fault = s.fault := rfl
@[simp] theorem finalize_host (s : State) : (finalize s).host = s.host := rfl
@[simp] theorem finalize_responses (s : State) : (finalize s).responses = s.responses := rfl

/-! ## absorbFromEmpty -/

@[simp] theorem absorbFromEmpty_h (bytes : List Byte) (s : State) :
    (absorbFromEmpty bytes s).h =
      (absorbBlocks (bytes.length / 64) s.h bytes).1 := rfl
@[simp] theorem absorbFromEmpty_buf (bytes : List Byte) (s : State) :
    (absorbFromEmpty bytes s).buf =
      s.buf.write 0 (absorbBlocks (bytes.length / 64) s.h bytes).2 := rfl
@[simp] theorem absorbFromEmpty_bufUsed (bytes : List Byte) (s : State) :
    (absorbFromEmpty bytes s).bufUsed =
      BitVec.ofNat 6 (absorbBlocks (bytes.length / 64) s.h bytes).2.length := rfl
@[simp] theorem absorbFromEmpty_lo (bytes : List Byte) (s : State) : (absorbFromEmpty bytes s).lo = s.lo := rfl
@[simp] theorem absorbFromEmpty_hi (bytes : List Byte) (s : State) : (absorbFromEmpty bytes s).hi = s.hi := rfl
@[simp] theorem absorbFromEmpty_fin (bytes : List Byte) (s : State) : (absorbFromEmpty bytes s).fin = s.fin := rfl
@[simp] theorem absorbFromEmpty_fault (bytes : List Byte) (s : State) :
    (absorbFromEmpty bytes s).fault =
      s.fault := rfl
@[simp] theorem absorbFromEmpty_host (bytes : List Byte) (s : State) : (absorbFromEmpty bytes s).host = s.host := rfl
@[simp] theorem absorbFromEmpty_responses (bytes : List Byte) (s : State) :
    (absorbFromEmpty bytes s).responses =
      s.responses := rfl

/-! ## issueTableWord -/

@[simp] theorem issueTableWord_h (nbits w : Nat) (s : State) : (issueTableWord nbits w s).h = s.h := rfl
@[simp] theorem issueTableWord_buf (nbits w : Nat) (s : State) : (issueTableWord nbits w s).buf = s.buf := rfl
@[simp] theorem issueTableWord_bufUsed (nbits w : Nat) (s : State) :
    (issueTableWord nbits w s).bufUsed =
      s.bufUsed := rfl
@[simp] theorem issueTableWord_lo (nbits w : Nat) (s : State) : (issueTableWord nbits w s).lo = s.lo := rfl
@[simp] theorem issueTableWord_hi (nbits w : Nat) (s : State) : (issueTableWord nbits w s).hi = s.hi := rfl
@[simp] theorem issueTableWord_fin (nbits w : Nat) (s : State) : (issueTableWord nbits w s).fin = s.fin := rfl
@[simp] theorem issueTableWord_fault (nbits w : Nat) (s : State) : (issueTableWord nbits w s).fault = s.fault := rfl
@[simp] theorem issueTableWord_host (nbits w : Nat) (s : State) :
    (issueTableWord nbits w s).host =
      .command (tableCommand nbits w) (tableLanes nbits w) :: s.host := rfl
@[simp] theorem issueTableWord_responses (nbits w : Nat) (s : State) :
    (issueTableWord nbits w s).responses =
      s.responses := rfl

/-! ## absorb, in its cases -/

theorem absorb_partial (bytes : List Byte) (s : State) (h0 : 0 < s.bufUsed.toNat)
    (h : bytes.length < 64 - s.bufUsed.toNat) :
    absorb bytes s =
      { s with
        buf := s.buf.write s.bufUsed.toNat bytes
        bufUsed := BitVec.ofNat 6 (s.bufUsed.toNat + bytes.length) } := by
  unfold absorb; rw [if_pos h0, if_pos h]

theorem absorb_fill (bytes : List Byte) (s : State) (h0 : 0 < s.bufUsed.toNat)
    (h : 64 - s.bufUsed.toNat ≤ bytes.length) :
    absorb bytes s =
      absorbFromEmpty (bytes.drop (64 - s.bufUsed.toNat))
        { s with
          buf := s.buf.write s.bufUsed.toNat (bytes.take (64 - s.bufUsed.toNat))
          h := compress s.h ((s.buf.write s.bufUsed.toNat (bytes.take (64 - s.bufUsed.toNat))).read 0 64)
          bufUsed := 0 } := by
  unfold absorb; rw [if_pos h0, if_neg (by omega)]

theorem absorb_empty (bytes : List Byte) (s : State) (h0 : s.bufUsed.toNat = 0) :
    absorb bytes s = absorbFromEmpty bytes s := by
  unfold absorb; rw [if_neg (by omega)]

@[simp] theorem absorb_lo (bytes : List Byte) (s : State) : (absorb bytes s).lo = s.lo := by
  unfold absorb; dsimp only; repeat' split
  all_goals rfl

@[simp] theorem absorb_hi (bytes : List Byte) (s : State) : (absorb bytes s).hi = s.hi := by
  unfold absorb; dsimp only; repeat' split
  all_goals rfl

@[simp] theorem absorb_fin (bytes : List Byte) (s : State) : (absorb bytes s).fin = s.fin := by
  unfold absorb; dsimp only; repeat' split
  all_goals rfl

@[simp] theorem absorb_fault (bytes : List Byte) (s : State) : (absorb bytes s).fault = s.fault := by
  unfold absorb; dsimp only; repeat' split
  all_goals rfl

@[simp] theorem absorb_host (bytes : List Byte) (s : State) : (absorb bytes s).host = s.host := by
  unfold absorb; dsimp only; repeat' split
  all_goals rfl

@[simp] theorem absorb_responses (bytes : List Byte) (s : State) : (absorb bytes s).responses = s.responses := by
  unfold absorb; dsimp only; repeat' split
  all_goals rfl

/-! ## Views -/

@[simp] theorem hashAlg_iv (alg : Alg) : hashAlg (iv alg) = alg := by cases alg <;> rfl

@[simp] theorem hashAlg_compress (h : HashWords) (blk : List Byte) : hashAlg (compress h blk) = hashAlg h := by
  cases h <;> simp only [compress, hashAlg]

@[simp] theorem hashWordList_length (h : HashWords) : (hashWordList h).length = Config.numWords (hashAlg h) := by
  cases h <;> rfl

theorem hashAlg_absorbBlocks (n : Nat) (h : HashWords) (bytes : List Byte) :
    hashAlg (absorbBlocks n h bytes).1 = hashAlg h := by
  induction n generalizing h bytes with
  | zero => rfl
  | succ n ih =>
    unfold absorbBlocks
    split
    next => rw [ih, hashAlg_compress]
    next => rfl

@[simp] theorem respond_alg (data : RespData) (s : State) : (respond data s).alg = s.alg := rfl

@[simp] theorem raiseFault_alg (c : FaultCode) (s : State) : (raiseFault c s).alg = s.alg := rfl

@[simp] theorem counterAdd_alg (n : Nat) (s : State) : (counterAdd n s).alg = s.alg := rfl

@[simp] theorem startComputation_alg (alg : Alg) (s : State) : (startComputation alg s).alg = alg := hashAlg_iv alg

/-- No update of UPDATE changes ALG (R21). -/
@[simp] theorem absorb_alg (bytes : List Byte) (s : State) : (absorb bytes s).alg = s.alg := by
  unfold absorb State.alg
  dsimp only
  repeat' split
  all_goals simp [hashAlg_absorbBlocks]

/-- Nothing FINAL does changes ALG (R217). -/
@[simp] theorem finalize_alg (s : State) : (finalize s).alg = s.alg := by
  simp only [State.alg, finalize_h, pad, padLength, hashAlg_compress]
  unfold padOverflow
  split
  next => simp [padMark]
  next => rfl

theorem lengthBits_toNat (s : State) : s.lengthBits.toNat = s.bitLength := by
  have := s.lo.isLt
  rw [State.lengthBits, State.bitLength, BitVec.toNat_append, ← Nat.shiftLeft_add_eq_or_of_lt this,
    Nat.shiftLeft_eq]

/-! ## State.reset -/

@[simp] theorem reset_h : State.reset.h = iv .md5 := rfl
@[simp] theorem reset_buf : State.reset.buf = [] := rfl
@[simp] theorem reset_bufUsed : State.reset.bufUsed = 0 := rfl
@[simp] theorem reset_lo : State.reset.lo = 0 := rfl
@[simp] theorem reset_hi : State.reset.hi = 0 := rfl
@[simp] theorem reset_fin : State.reset.fin = false := rfl
@[simp] theorem reset_fault : State.reset.fault = 0 := rfl
@[simp] theorem reset_host : State.reset.host = [] := rfl
@[simp] theorem reset_responses : State.reset.responses = [] := rfl

end Sys2Proof.Machine
end

