-- ==== Sys2Proof/Laws/Step.lean ====
section
/-! SUPPORT. What one step can do, said once: the inversion of fetch, exec and step. -/

namespace Sys2Proof.Machine

/-- What fetch answers, by the host's next action. -/
theorem fetch_cases (s : State) :
    (s.host = [] ∧ fetch s = .idle) ∨
    (∃ rest, s.host = .reset :: rest ∧ fetch s = .reset { s with host := rest }) ∨
    (∃ cmd data rest i, s.host = .command cmd data :: rest ∧ decode cmd data = .ok i ∧
      fetch s = .run i { s with host := rest }) ∨
    (∃ cmd data rest c, s.host = .command cmd data :: rest ∧ decode cmd data = .fault c ∧
      fetch s = .malformed c { s with host := rest }) := by
  unfold fetch
  rcases hh : s.host with _ | ⟨_ | _, rest⟩
  · exact .inl ⟨rfl, rfl⟩
  · next cmd data =>
    rcases hd : decode cmd data with i | c
    · exact .inr (.inr (.inl ⟨cmd, data, rest, i, rfl, hd, by simp [hd]⟩))
    · exact .inr (.inr (.inr ⟨cmd, data, rest, c, rfl, hd, by simp [hd]⟩))
  · exact .inr (.inl ⟨rest, rfl, rfl⟩)

/-- What a command can do: take the fault its own rule names, in the states its rule names, or have its effect and
respond with ack = 1. -/
theorem exec_cases (i : Instr) (s t : State) (h : exec i s = .next t) :
    (∃ alg, i = .init alg ∧ t = respond .empty (startComputation alg s)) ∨
    (∃ count data, i = .update count data ∧
      (s.fin = true ∧ t = raiseFault .updateAfterFinal s ∨
       s.fin = false ∧ t = respond .empty (absorb (messageBytes count data) (counterAdd count.toNat s)))) ∨
    (i = .final ∧
      (s.fin = true ∧ t = raiseFault .finalAfterFinal s ∨ s.fin = false ∧ t = respond .empty (finalize s))) ∨
    (i = .rdstat ∧ t = respond (.status (statusWord s)) s) ∨
    (i = .rddig ∧
      (s.fin = true ∧ t = respond (.digest (serialize s.h)) s ∨
       s.fin = false ∧ t = raiseFault .digestNotReady s)) := by
  cases i with
  | init alg =>
    simp only [exec, execInit, Host.Outcome.next.injEq] at h
    exact .inl ⟨alg, rfl, h.symm⟩
  | update count data =>
    refine .inr (.inl ⟨count, data, rfl, ?_⟩)
    simp only [exec, execUpdate] at h
    split at h <;> simp only [Host.Outcome.next.injEq] at h <;> simp_all
  | final =>
    refine .inr (.inr (.inl ⟨rfl, ?_⟩))
    simp only [exec, execFinal] at h
    split at h <;> simp only [Host.Outcome.next.injEq] at h <;> simp_all
  | rdstat =>
    simp only [exec, execRdstat, Host.Outcome.next.injEq] at h
    exact .inr (.inr (.inr (.inl ⟨rfl, h.symm⟩)))
  | rddig =>
    refine .inr (.inr (.inr (.inr ⟨rfl, ?_⟩)))
    simp only [exec, execRddig] at h
    split at h <;> simp only [Host.Outcome.next.injEq] at h <;> simp_all

/-- What a step can do, by the host's next action. -/
theorem step_cases (s t : State) (h : step s = .next t) :
    (s.host = [] ∧ t = s) ∨
    (∃ rest, s.host = .reset :: rest ∧ t = hardwareReset { s with host := rest }) ∨
    (∃ cmd data rest i, s.host = .command cmd data :: rest ∧ decode cmd data = .ok i ∧
      exec i { s with host := rest } = .next t) ∨
    (∃ cmd data rest c, s.host = .command cmd data :: rest ∧ decode cmd data = .fault c ∧
      t = raiseFault c { s with host := rest }) := by
  unfold step at h
  rcases fetch_cases s with ⟨h1, h2⟩ | ⟨rest, h1, h2⟩ | ⟨cmd, data, rest, i, h1, h2, h3⟩ |
      ⟨cmd, data, rest, c, h1, h2, h3⟩
  · rw [h2] at h
    exact .inl ⟨h1, (Host.Outcome.next.inj h).symm⟩
  · rw [h2] at h
    exact .inr (.inl ⟨rest, h1, (Host.Outcome.next.inj h).symm⟩)
  · rw [h3] at h
    exact .inr (.inr (.inl ⟨cmd, data, rest, i, h1, h2, h⟩))
  · rw [h3] at h
    exact .inr (.inr (.inr ⟨cmd, data, rest, c, h1, h2, (Host.Outcome.next.inj h).symm⟩))

/-- No steps leave the state. -/
theorem run_zero (s : State) : Host.Core.run Sys2Proof.core 0 s = .next s := rfl

/-- A run goes on from the next state of its first step. -/
theorem run_succ (n : Nat) (s t : State) (h : step s = .next t) :
    Host.Core.run Sys2Proof.core (n + 1) s = Host.Core.run Sys2Proof.core n t := by
  have hs : Sys2Proof.core.step s = .next t := h
  rw [Host.Core.run.eq_2 Sys2Proof.core s n, hs]

/-- A run of n + k steps is a run of n steps and then of k. -/
theorem run_add (n k : Nat) (s t : State) (h : Host.Core.run Sys2Proof.core n s = .next t)
    (total : ∀ u, ∃ v, step u = .next v) :
    Host.Core.run Sys2Proof.core (n + k) s = Host.Core.run Sys2Proof.core k t := by
  induction n generalizing s with
  | zero => rw [Nat.zero_add, Host.Outcome.next.inj h]
  | succ n ih =>
    obtain ⟨v, hv⟩ := total s
    rw [run_succ n s v hv] at h
    rw [Nat.add_right_comm, run_succ (n + k) s v hv, ih v h]

end Sys2Proof.Machine
end

