-- ==== Sys2Proof/Tests/Slice0.lean ====
section
/-! SUPPORT. The model's own tests. Expected values are those of spec/95_test_vectors.md (section and row in each
comment) or are written out by hand from the encodings of spec/30_encoding.md. After them, for each statement of
Certificates/Slice0 that has hypotheses, a concrete case that meets them (test_meets_<name>). -/

namespace Sys2Proof.Tests

open Sys2Proof Sys2Proof.Machine

-- One theorem at a time: many kernel evaluations at once would need a thread, and its stack, each.
set_option Elab.async false

/-! ## Helpers -/

/-- A view of the next state; none if there is no next state. -/
def seen {α : Type} (f : State → α) (r : Result) : Option α :=
  match r with
  | .next t => some (f t)
  | .fault _ => none
  | .refused _ => none

/-- The last response of a state. -/
def lastResponse (s : State) : Option Response := s.responses.getLast?

/-- The state after INIT alg and one short UPDATE of these bytes. -/
def waiting (alg : Alg) (bytes : List Byte) : State :=
  { State.reset with
    h := iv alg
    buf := Memory.write [] 0 bytes
    bufUsed := BitVec.ofNat 6 bytes.length
    lo := BitVec.ofNat 32 (8 * bytes.length) }

/-- A state with a finalized digest. -/
def finished (h : HashWords) : State := { State.reset with h := h, fin := true }

/-- A state whose host issues one command word, with the data operand given. -/
def issuing (w : Word) (data : Lanes) (s : State) : State := { s with host := [.command w data] }

/-- The message "abc". -/
def abc : List Byte := [0x61, 0x62, 0x63]

/-- n bytes 'a'. -/
def as (n : Nat) : List Byte := List.replicate n 0x61

/-- n bytes counting up from v. -/
def counting (v n : Nat) : List Byte := (List.range n).map fun j => BitVec.ofNat 8 (v + j)

/-- MD5("abc") as words (P1). -/
def abcMd5 : HashWords := .md5 ⟨0x98500190, 0xb04fd23c, 0x7d3f96d6, 0x727fe128⟩

/-- SHA-1("abc") as words (P3). -/
def abcSha1 : HashWords := .sha1 ⟨0xa9993e36, 0x4706816a, 0xba3e2571, 0x7850c26c, 0x9cd0d89d⟩

/-! ## Well-formedness -/

theorem test_wellFormed_update_64 : (Instr.update 64 zeroLanes).wellFormed = true := by decide

theorem test_illFormed_update_65 : (Instr.update 65 zeroLanes).wellFormed = false := by decide

theorem test_illFormed_update_127 : (Instr.update 127 zeroLanes).wellFormed = false := by decide

/-! ## Decoding: words written bit by bit from R80 to R87 (OP in 3:0, ALG in 4, COUNT in 14:8) -/

theorem test_decode_init_md5 :
    decode 0b00000000000000000000000000000001#32 zeroLanes = .ok (.init .md5) := by decide

theorem test_decode_init_sha1 :
    decode 0b00000000000000000000000000010001#32 zeroLanes = .ok (.init .sha1) := by decide

theorem test_decode_update_0 :
    decode 0b00000000000000000000000000000010#32 zeroLanes = .ok (.update 0 zeroLanes) := by decide

theorem test_decode_update_37 :
    decode 0b00000000000000000010010100000010#32 zeroLanes = .ok (.update 37 zeroLanes) := by decide

theorem test_decode_update_64 :
    decode 0b00000000000000000100000000000010#32 zeroLanes = .ok (.update 64 zeroLanes) := by decide

theorem test_decode_final : decode 0b00000000000000000000000000000011#32 zeroLanes = .ok .final := by decide

theorem test_decode_rdstat : decode 0b00000000000000000000000000000100#32 zeroLanes = .ok .rdstat := by decide

theorem test_decode_rddig : decode 0b00000000000000000000000000000101#32 zeroLanes = .ok .rddig := by decide

/-- Section 9: OP 0, OP 6, OP F, every bit set. -/
theorem test_decode_illegal_op :
    [0x00000000#32, 0x00000006#32, 0x0000000f#32, 0xffffffff#32].map (fun w => decode w zeroLanes) =
      List.replicate 4 (.fault .illegalOp) := by decide

/-- Section 9: reserved bits of every command; 0xc1f2 has a COUNT of 65 too and is fault 2, not 3. -/
theorem test_decode_reserved_bits :
    [0x00000021#32, 0x00000101#32, 0x80000001#32, 0x00000013#32, 0x00000014#32, 0x00000015#32, 0x00000012#32,
      0x00010002#32, 0x0000c1f2#32].map (fun w => decode w zeroLanes) =
      List.replicate 9 (.fault .reservedBits) := by decide

/-- Section 9: COUNT 65 and COUNT 127. -/
theorem test_decode_count_range :
    [0x00004102#32, 0x00007f02#32].map (fun w => decode w zeroLanes) =
      List.replicate 2 (.fault .countRange) := by decide

/-- The table has the five rows of R87, and no two of them overlap: they differ in a bit both rows fix. -/
theorem test_table_rows_disjoint :
    commandTable.map CommandRow.mnemonic = ["INIT", "UPDATE", "FINAL", "RDSTAT", "RDDIG"] ∧
    commandTable.Pairwise (fun r q => r.pattern &&& (r.mask &&& q.mask) ≠ q.pattern &&& (r.mask &&& q.mask)) := by
  decide

/-- Section 5.3: UPDATE 36 is the word 0x00002402. -/
theorem test_encode_update_36 : encode (.update 36 zeroLanes) = 0x00002402 := by decide

/-- The table's numbering: bits 31..0 are the command word, the lanes are 0. -/
theorem test_decodeTableWord_update_64 : decodeTableWord 32 0x4002 = some (.update 64 zeroLanes) := by decide

theorem test_decodeTableWord_refuses : decodeTableWord 32 0x4102 = none := by decide

/-- A placed word is the next one to run: P3 row 1. -/
theorem test_withFetchWord_runs :
    seen statusWord (step (State.reset.withFetchWord 32 0x11)) = some 0x00000002 := by decide

/-! ## One command at a time -/

/-- Section 7, row 3: INIT SHA1 on a partly filled MD5 computation. -/
theorem test_init_sha1 :
    seen (fun t => (t.alg, t.h, t.bufUsed, t.bitLength, t.fin))
        (exec (.init .sha1) (waiting .md5 (counting 0x30 10))) =
      some (.sha1, .sha1 ⟨0x67452301, 0xefcdab89, 0x98badcfe, 0x10325476, 0xc3d2e1f0⟩, 0, 0, false) := by decide

/-- Section 7, row 4: INIT does not clear FAULT. -/
theorem test_init_keeps_fault :
    seen statusWord (exec (.init .md5) { finished abcMd5 with fault := 4 }) = some 0x00040000 := by decide

/-- Section 5.1: row 63 + 1 makes one compression of the filled buffer (here of 64 zero bytes, section 2.2) and leaves
nothing; row 32 + 33 leaves one byte, at offset 0. -/
theorem test_update_completes_block :
    seen (fun t => (t.h, t.bufUsed, t.lo))
        (exec (.update 1 zeroLanes) { State.reset with bufUsed := 63, lo := 0x1f8 }) =
      some (.md5 ⟨0x031f1dac, 0x6ea58ed0, 0x1fab67b7, 0x74317791⟩, 0, 0x200) ∧
    seen (fun t => (t.buf.read 0 2, t.bufUsed, t.lo))
        (exec (.update 33 (lanesOf (counting 100 33))) (waiting .md5 (counting 0 32))) =
      some ([0x84, 0x01], 1, 0x208) := by decide +kernel

/-- Section 5.2: a carry into HI, and the wrap of both halves, with no fault. -/
theorem test_update_counter :
    seen (fun t => (t.lo, t.hi)) (exec (.update 3 zeroLanes) { State.reset with lo := 0xfffffff0, hi := 7 }) =
      some (0x00000008, 0x00000008) ∧
    seen (fun t => (t.lo, t.hi, t.fault))
        (exec (.update 1 zeroLanes) { State.reset with lo := 0xfffffff8, hi := 0xffffffff }) =
      some (0x00000000, 0x00000000, 0) := by decide +kernel

/-- P1, row 3. -/
theorem test_final_md5_abc :
    seen (fun t => (t.h, t.bufUsed, t.bitLength, t.fin)) (exec .final (waiting .md5 abc)) =
      some (abcMd5, 0, 0x18, true) := by decide +kernel

/-- Sections 6.1 and 6.2: 56 bytes 'a' take two compressions, and BUF keeps the last block, its SHA-1 length big-endian. -/
theorem test_final_sha1_56 :
    seen (fun t => (serialize t.h, t.buf.read 54 10)) (exec .final (waiting .sha1 (as 56))) =
      some ([0xc2, 0xdb, 0x33, 0x0f, 0x60, 0x83, 0x85, 0x4c, 0x99, 0xd4, 0xb5, 0xbf, 0xb6, 0xe8, 0xf2, 0x9f,
          0x20, 0x1b, 0xe6, 0x99],
        [0, 0, 0, 0, 0, 0, 0, 0, 0x01, 0xc0]) := by decide +kernel

/-- Section 7, row 2: STATUS of ten waiting bytes. -/
theorem test_rdstat_fields :
    seen lastResponse (exec .rdstat (waiting .md5 (counting 0x30 10))) =
      some (some ⟨true, .status 0x00000a00⟩) := by decide

/-- P3, row 4, with a fault latched besides (R29: bits 19:16). -/
theorem test_rdstat_sha1_fin :
    seen lastResponse (exec .rdstat { finished abcSha1 with fault := 5 }) =
      some (some ⟨true, .status 0x00050003⟩) := by decide

/-- P1, row 5 (S2). -/
theorem test_rddig_md5 :
    seen lastResponse (exec .rddig (finished abcMd5)) =
      some (some ⟨true, .digest [0x90, 0x01, 0x50, 0x98, 0x3c, 0xd2, 0x4f, 0xb0, 0xd6, 0x96, 0x3f, 0x7d, 0x28, 0xe1,
        0x7f, 0x72]⟩) := by decide

/-- P3, row 5 (S3). -/
theorem test_rddig_sha1 :
    seen lastResponse (exec .rddig (finished abcSha1)) =
      some (some ⟨true, .digest [0xa9, 0x99, 0x3e, 0x36, 0x47, 0x06, 0x81, 0x6a, 0xba, 0x3e, 0x25, 0x71, 0x78, 0x50,
        0xc2, 0x6c, 0x9c, 0xd0, 0xd8, 0x9d]⟩) := by decide

/-! ## Faults (sections 5.4, 6.3, 9) -/

/-- UPDATE, FINAL with FIN = 1, RDDIG with FIN = 0: codes 4, 5, 6. -/
theorem test_state_faults :
    seen State.fault (exec (.update 0 zeroLanes) (finished abcMd5)) = some 4 ∧
    seen State.fault (exec .final (finished abcMd5)) = some 5 ∧
    seen State.fault (exec .rddig State.reset) = some 6 := by decide

/-- UPDATE of COUNT 65 with FIN = 1 is code 3, not 4. -/
theorem test_count_before_state :
    seen State.fault (step (issuing 0x00004102 zeroLanes (finished abcMd5))) = some 3 := by decide

/-- FINAL with bit 4 set and FIN = 1 is code 2, not 5. -/
theorem test_decode_before_state :
    seen State.fault (step (issuing 0x00000013 zeroLanes (finished abcMd5))) = some 2 := by decide

/-- The first fault wins (R270), and the response is an empty one with ack = 0. -/
theorem test_fault_sticks :
    seen (fun t => (t.fault, lastResponse t)) (exec .rddig { State.reset with fault := 4 }) =
      some (4, some ⟨false, .empty⟩) := by decide

/-- A reset clears FAULT and selects MD5 again (R290). -/
theorem test_reset_clears :
    seen (fun t => (t.fault, t.fin, t.h)) (step { finished abcSha1 with fault := 4, host := [.reset] }) =
      some (0, false, .md5 ⟨0x67452301, 0xefcdab89, 0x98badcfe, 0x10325476⟩) := by decide

/-! ## The transforms (sections 2 to 4) -/

/-- Section 4.2. -/
theorem test_rotl :
    rotl 0x80000000 1 = 0x00000001 ∧ rotl 0x00000001 31 = 0x80000000 ∧ rotl 0x12345678 7 = 0x1a2b3c09 ∧
    rotl 0x12345678 25 = 0xf02468ac ∧ rotl 0xefcdab89 30 = 0x7bf36ae2 := by decide

/-- Section 4.3, last row. -/
theorem test_round_functions :
    md5F 0x12345678 0x9abcdef0 0x0fedcba9 = 0x1ffddff1 ∧ md5G 0x12345678 0x9abcdef0 0x0fedcba9 = 0x92345678 ∧
    md5H 0x12345678 0x9abcdef0 0x0fedcba9 = 0x87654321 ∧ md5I 0x12345678 0x9abcdef0 0x0fedcba9 = 0x688aa88e ∧
    sha1Ch 0x12345678 0x9abcdef0 0x0fedcba9 = 0x1ffddff1 ∧ sha1Parity 0x12345678 0x9abcdef0 0x0fedcba9 = 0x87654321 ∧
    sha1Maj 0x12345678 0x9abcdef0 0x0fedcba9 = 0x1abcdef8 := by decide

/-- The padded MD5 block of "abc" (section 2.1). -/
def abcBlockMd5 : List Byte := abc ++ [0x80] ++ zeroBytes 52 ++ [0x18] ++ zeroBytes 7

/-- The padded SHA-1 block of "abc" (section 3.1). -/
def abcBlockSha1 : List Byte := abc ++ [0x80] ++ zeroBytes 59 ++ [0x18]

/-- Section 2.1: the variables after steps 0, 16, 32 and 48. -/
theorem test_md5_rounds :
    md5Rounds 1 md5IV abcBlockMd5 = ⟨0x10325476, 0xd6d117b4, 0xefcdab89, 0x98badcfe⟩ ∧
    md5Rounds 17 md5IV abcBlockMd5 = ⟨0xa1051895, 0x3e9e9126, 0x72aff2e0, 0xe396856b⟩ ∧
    md5Rounds 33 md5IV abcBlockMd5 = ⟨0x9f47e4f8, 0xb3707ebf, 0x726342d3, 0xa62884aa⟩ ∧
    md5Rounds 49 md5IV abcBlockMd5 = ⟨0x99d9679d, 0x7b201df8, 0x7beb9700, 0x8fae6399⟩ := by decide +kernel

/-- Section 2.2: 64 bytes ff. -/
theorem test_compressMd5_ff :
    compressMd5 ⟨0, 0, 0, 0⟩ (List.replicate 64 0xff) = ⟨0xe0317343, 0xa301becb, 0xc156fa57, 0x9083016f⟩ := by
  decide +kernel

/-- Section 3.1: the variables after steps 0, 20, 40 and 60. -/
theorem test_sha1_rounds :
    sha1Rounds 1 sha1IV abcBlockSha1 = ⟨0x0116fc33, 0x67452301, 0x7bf36ae2, 0x98badcfe, 0x10325476⟩ ∧
    sha1Rounds 21 sha1IV abcBlockSha1 = ⟨0x1a37b0ca, 0xfd9e1d7d, 0x77192407, 0x20aa99ca, 0xd3a49608⟩ ∧
    sha1Rounds 41 sha1IV abcBlockSha1 = ⟨0xfc87dedf, 0x32de1cba, 0x53261901, 0xf718e5cf, 0x03d447f6⟩ ∧
    sha1Rounds 61 sha1IV abcBlockSha1 = ⟨0xd756c147, 0x3f52de5a, 0x4275e17f, 0x3498bfd4, 0xf211824f⟩ := by
  decide +kernel

/-- Section 3.1: expanded schedule words. -/
theorem test_sha1_schedule :
    ((sha1Schedule abcBlockSha1).drop 16).take 4 = [0xc2c4c700, 0x00000000, 0x00000030, 0x85898e01] ∧
    (sha1Schedule abcBlockSha1).drop 76 = [0xe6e60b69, 0x00f60a00, 0x5795ef4f, 0x822e0879] := by decide +kernel

/-- Section 3.2: 64 bytes ff. -/
theorem test_compressSha1_ff :
    compressSha1 sha1IV (List.replicate 64 0xff) =
      ⟨0xbafbc2c8, 0x7c333226, 0x03f38e06, 0xc3e0f79c, 0x1f1b1475⟩ := by decide +kernel

/-! ## The host's side (section 8) -/

/-- HASH of a null pointer, of an inverted range, of an empty range: no command. -/
theorem test_hash_degenerate :
    hashPlan .md5 .nullPointer = .answer (List.replicate 16 0) ∧
    hashPlan .sha1 .inverted = .answer (List.replicate 20 0) ∧
    hashPlan .md5 (.bytes []) = .answer [0xd4, 0x1d, 0x8c, 0xd9, 0x8f, 0x00, 0xb2, 0x04, 0xe9, 0x80, 0x09, 0x98, 0xec,
      0xf8, 0x42, 0x7e] := by decide

/-- HASH MD5 of 100 bytes 'a' issues INIT, UPDATE 64, UPDATE 36, FINAL, RDDIG. -/
theorem test_hash_commands :
    (hashActions .md5 (as 100)).map (fun a => match a with
      | .command w _ => w
      | .reset => 0) = [0x00000001, 0x00004002, 0x00002402, 0x00000003, 0x00000005] := by decide +kernel

/-- Assembler lines (R91): one with no data, `.word`, an UPDATE line, and one of 65 bytes. -/
theorem test_assemble :
    assemble .rddig = some (.command 0x00000005 zeroLanes) ∧
    assemble (.word 0x0000c1f2) = some (.command 0x0000c1f2 zeroLanes) ∧
    assemble (.update abc) = some (.command 0x00000302 (lanesOf abc)) ∧ assemble (.update (as 65)) = none := by
  decide +kernel

/-- The host refuses a null source with a non-zero count (R294). -/
theorem test_absorb_null : absorbCall none 3 = none ∧ absorbCall none 0 = some [] := by decide

/-- A wide element's bytes (R243), and a null-terminated sequence. -/
theorem test_wide_elements :
    flattenWide .little 2 [0x6162#16, 0x0063#16] = [0x62, 0x61, 0x63, 0x00] ∧
    flattenWide .big 2 [0x6162#16, 0x0063#16] = [0x61, 0x62, 0x00, 0x63] ∧
    measured [0x0061#16, 0x0000#16, 0x0062#16] = [0x0061#16] := by decide

/-! ## Cases that meet the hypotheses of the statements: encoding and decoding -/

/-- DecodeOfEncodeIsIdentity: the largest COUNT, and each other constructor. -/
theorem test_meets_DecodeOfEncodeIsIdentity :
    [Instr.init .md5, .init .sha1, .update 0 zeroLanes, .update 64 zeroLanes, .final, .rdstat, .rddig].map
      Instr.wellFormed = List.replicate 7 true := by decide

/-- EncodeOfDecodeIsWord. -/
theorem test_meets_EncodeOfDecodeIsWord :
    decode 0x00004002 zeroLanes = .ok (.update 64 zeroLanes) ∧ (Instr.update 64 zeroLanes).op = .update := by decide

/-- DecodedWordsMatchOneTableRow, its second part: a word that matches a row. -/
theorem test_meets_DecodedWordsMatchOneTableRow :
    matchesRow 0x00000011 .init = true ∧ matchesRow 0x00007f02 .update = true ∧ matchesRow 0x00000003 .final = true ∧
    matchesRow 0x00000004 .rdstat = true ∧ matchesRow 0x00000005 .rddig = true := by decide

/-- UnmatchedWordOnlyFaults: a word that matches no row, and one that matches UPDATE with COUNT 65. -/
theorem test_meets_UnmatchedWordOnlyFaults :
    (issuing 0x00000013 zeroLanes State.reset).host = .command 0x00000013 zeroLanes :: [] ∧
    (∀ op, matchesRow 0x00000013 op = true → op = .update ∧ 64 < ((0x00000013 : Word).extractLsb' 8 7).toNat) ∧
    (∀ op, matchesRow 0x00004102 op = true → op = .update ∧ 64 < ((0x00004102 : Word).extractLsb' 8 7).toNat) := by
  refine ⟨rfl, ?_, ?_⟩ <;> intro op <;> cases op <;> decide

/-- UnusedLanesAreIgnored: an UPDATE of 3 whose data operands differ in lane 3 on; a command that reads no lane; a word
that faults. -/
theorem test_meets_UnusedLanesAreIgnored :
    (∀ j, (hj : j < 64) → j < ((0x00000302 : Word).extractLsb' 8 7).toNat → (lanesOf abc)[j] = (lanesOf (abc ++ abc))[j]) ∧
    (lanesOf abc)[3] ≠ (lanesOf (abc ++ abc))[3] ∧
    (0x00000004 : Word).extractLsb' 0 4 ≠ 0x2#4 ∧ decode 0x00004102 zeroLanes = .fault .countRange := by
  have low : ∀ k : Fin 3, (lanesOf abc)[k.val] = (lanesOf (abc ++ abc))[k.val] := by decide
  exact ⟨fun j _ h => low ⟨j, h⟩, by decide, by decide, by decide⟩

/-! ## The step and the host interface -/

/-- StepRunsDecodedCommand. -/
theorem test_meets_StepRunsDecodedCommand :
    (issuing 0x00000011 zeroLanes State.reset).host = .command 0x00000011 zeroLanes :: [] ∧
    decode 0x00000011 zeroLanes = .ok (.init .sha1) := by decide

/-- WaitingBlockHoldsState. -/
theorem test_meets_WaitingBlockHoldsState : (waiting .md5 abc).host = [] := by decide

/-- HardwareResetSetsEveryRegister, from a state in which every register differs from its reset value. -/
theorem test_meets_HardwareResetSetsEveryRegister :
    ({ finished abcSha1 with bufUsed := 5, lo := 8, hi := 9, fault := 3, host := [.reset] } : State).host =
      .reset :: [] := by decide

/-- ResetStateAndInitialValues has no hypothesis; EveryCommandGetsOneResponse: a refused and a performed RDDIG, an RDSTAT,
and another command. -/
theorem test_meets_EveryCommandGetsOneResponse :
    seen lastResponse (step (issuing 0x00000005 zeroLanes State.reset)) = some (some ⟨false, .empty⟩) ∧
    (seen lastResponse (step (issuing 0x00000005 zeroLanes (finished abcMd5)))).map (Option.map Response.ack) =
      some (some true) ∧
    seen lastResponse (step (issuing 0x00000004 zeroLanes State.reset)) = some (some ⟨true, .status 0⟩) ∧
    seen lastResponse (step (issuing 0x00000001 zeroLanes State.reset)) = some (some ⟨true, .empty⟩) := by decide

/-! ## INIT and RDSTAT -/

/-- InitStartsComputation: the clause about STATUS. -/
theorem test_meets_InitStartsComputation : (waiting .md5 abc).fault = 0 := by decide

/-- RdstatReturnsStatusFields: a bit at each end of each field, and beside it, in a state with every field set. -/
theorem test_meets_RdstatReturnsStatusFields :
    seen lastResponse (exec .rdstat { finished abcSha1 with bufUsed := 63, fault := 15 }) =
      some (some ⟨true, .status 0b00000000000011110011111100000011#32⟩) := by decide

/-- RepeatedReadsAndInitsAgree: INIT, RDSTAT and, with FIN = 1, RDDIG answer a next state. -/
theorem test_meets_RepeatedReadsAndInitsAgree :
    (∃ t, exec (.init .sha1) State.reset = .next t) ∧ (∃ t, exec .rdstat State.reset = .next t) ∧
    (finished abcMd5).fin = true ∧ (∃ t, exec .rddig (finished abcMd5) = .next t) :=
  ⟨⟨_, rfl⟩, ⟨_, rfl⟩, rfl, ⟨_, rfl⟩⟩

/-! ## UPDATE -/

/-- UpdateRefusedAfterFinal; FinalRefusedAfterFinal; RddigReturnsSerializedWords. -/
theorem test_meets_UpdateRefusedAfterFinal :
    (finished abcMd5).fin = true ∧ (finished abcSha1).fin = true ∧
    ({ finished abcSha1 with fault := 2 } : State).fin = true := by decide

/-- UpdateFollowsAbsorbCases: the counts at which its four cases meet. Partial fill up to 63; exact fill and the most that
can be left over; 64 into an empty buffer; 0 and 63 into an empty buffer. -/
theorem test_meets_UpdateFollowsAbsorbCases :
    (waiting .md5 (as 1)).fin = false ∧ (waiting .md5 (as 1)).bufUsed.toNat = 1 ∧
    (waiting .md5 (as 63)).bufUsed.toNat = 63 ∧ State.reset.fin = false ∧ State.reset.bufUsed.toNat = 0 ∧
    (0 < 1 ∧ (62 : BitVec 7).toNat < 64 - 1) ∧ ¬ (63 : BitVec 7).toNat < 64 - 1 ∧
    (0 : BitVec 7).toNat < 64 - 63 ∧ ¬ (64 : BitVec 7).toNat < 64 - 63 ∧ (64 : BitVec 7).toNat ≤ 64 ∧
    (64 : BitVec 7).toNat = 64 ∧ (63 : BitVec 7).toNat ≠ 64 ∧ (0 : BitVec 7).toNat ≠ 64 := by decide

/-- UpdateFollowsAbsorbCases, section 5.1: rows 1 + 62 and 1 + 63. -/
theorem test_meets_UpdateFollowsAbsorbCases_boundary :
    seen (fun t => (t.bufUsed, t.buf.read 0 2)) (exec (.update 62 (lanesOf (counting 100 62))) (waiting .md5 (counting 7 1))) =
      some (63, [0x07, 0x64]) ∧
    seen (fun t => t.bufUsed) (exec (.update 63 (lanesOf (counting 100 63))) (waiting .md5 (counting 7 1))) = some 0 := by
  decide +kernel

/-- UpdateExtendsWaitingBytes, UpdateCountsMessageBits: 63 waiting bytes and 0 or 64 new ones. -/
theorem test_meets_UpdateExtendsWaitingBytes :
    (waiting .sha1 (as 63)).fin = false ∧ ((waiting .sha1 (as 63)).buf.read 0 63).length = 63 ∧
    (64 : BitVec 7).toNat ≤ 64 ∧ (0 : BitVec 7).toNat ≤ 64 := by decide +kernel

/-- UpdateCountsMessageBits: a carry and no carry. -/
theorem test_meets_UpdateCountsMessageBits :
    2 ^ 32 ≤ (0xfffffe00 : Word).toNat + (64 : BitVec 7).toNat * 8 ∧
    ¬ 2 ^ 32 ≤ (0xfffffdf8 : Word).toNat + (64 : BitVec 7).toNat * 8 ∧
    ({ State.reset with lo := 0xfffffe00, hi := 0xffffffff } : State).fin = false ∧
    (seen State.bitLength (exec .final (finished abcMd5))).isSome = true := by decide

/-- UpdateFrame: next states; a byte outside the stored ones with a partial fill (offsets 0 and 5 of 3 + 2), with a fill that
wraps (offset 2 of 63 + 3), and with nothing stored (any offset of 0 + 64). -/
theorem test_meets_UpdateFrame :
    (∃ t, exec (.update 2 zeroLanes) (waiting .md5 abc) = .next t) ∧
    (3 + 2 < 64 ∧ (0 < 3 ∨ 3 + 2 ≤ 0) ∧ (5 < 3 ∨ 3 + 2 ≤ 5)) ∧
    (¬ 63 + 3 < 64 ∧ 63 + 3 - 64 ≤ 2 ∧ 2 < 63) ∧ (¬ 0 + 64 < 64 ∧ 0 + 64 - 64 ≤ 0) :=
  ⟨⟨_, rfl⟩, by decide, by decide, by decide⟩

/-- UpdateFrame on a fill that wraps: BUF[2] is as it was, BUF[0] and BUF[1] are new. -/
theorem test_meets_UpdateFrame_wraps :
    seen (fun t => t.buf.read 0 3) (exec (.update 3 (lanesOf (counting 100 3))) (waiting .md5 (counting 1 63))) =
      some [0x65, 0x66, 0x03] := by decide +kernel

/-- EmptyUpdateChangesNothing. -/
theorem test_meets_EmptyUpdateChangesNothing : (waiting .md5 (as 5)).fin = false := by decide

/-- AbsorbedStateDependsOnMessageOnly: "abc" in two UPDATEs after reset. -/
theorem test_meets_AbsorbedStateDependsOnMessageOnly :
    let chunks : List (BitVec 7 × Lanes) := [(1, lanesOf [0x61]), (2, lanesOf [0x62, 0x63])]
    State.StartOf .md5 { State.reset with host := chunks.map fun c => commandAction (.update c.1 c.2) } ∧
    (∀ c ∈ chunks, c.1.toNat ≤ 64) ∧
    (chunks.flatMap fun c => c.2.toList.take c.1.toNat) = abc ∧
    (chunks.flatMap fun c => c.2.toList.take c.1.toNat).length < 2 ^ 61 := by
  refine ⟨⟨rfl, rfl, rfl, rfl, rfl⟩, by decide, by decide, by decide⟩

/-! ## FINAL and RDDIG -/

/-- FinalFollowsPadSteps, FinalCompressesPaddedBytes: both sides of the 55 / 56 boundary, and 63. -/
theorem test_meets_FinalCompressesPaddedBytes :
    (waiting .md5 (as 55)).fin = false ∧ (waiting .md5 (as 55)).bufUsed.toNat = 55 ∧
    (waiting .sha1 (as 56)).fin = false ∧ (waiting .sha1 (as 56)).bufUsed.toNat = 56 ∧
    (waiting .sha1 (as 63)).bufUsed.toNat = 63 ∧ 64 - (56 + 1) < 8 ∧ ¬ 64 - (55 + 1) < 8 := by decide

/-- FinalFollowsPadSteps: a buffer that agrees below BUF_USED and differs above. -/
theorem test_meets_FinalFollowsPadSteps :
    (∀ k : Fin 3, Memory.readByte (Memory.write [] 0 (abc ++ as 3)) k.val = (waiting .md5 abc).buf.readByte k.val) ∧
    (waiting .md5 abc).bufUsed.toNat = 3 ∧ Memory.write [] 0 (abc ++ as 3) ≠ (waiting .md5 abc).buf ∧
    (waiting .md5 abc).fin = false := by decide

/-- FinalWritesLengthField: the first and the last length byte in both orders, of 56 bytes 'a' (section 6.2). -/
theorem test_meets_FinalWritesLengthField :
    (waiting .md5 (as 56)).bitLength = 0x1c0 ∧
    seen (fun t => (t.buf.readByte 56, t.buf.readByte 57, t.buf.readByte 63)) (exec .final (waiting .md5 (as 56))) =
      some (0xc0, 0x01, 0x00) := by decide +kernel

/-- FinalizedDigestIsKept: an RDDIG and a FINAL in a finalized block. -/
theorem test_meets_FinalizedDigestIsKept :
    (finished abcMd5).fin = true ∧ decode 0x00000003 zeroLanes = .ok .final ∧
    (∀ alg, decode 0x00000003 zeroLanes ≠ .ok (.init alg)) ∧
    (∃ t, step (issuing 0x00000003 zeroLanes (finished abcMd5)) = .next t) :=
  ⟨rfl, by decide, fun alg => by cases alg <;> decide, ⟨_, rfl⟩⟩

/-- RddigRefusedBeforeFinal. -/
theorem test_meets_RddigRefusedBeforeFinal : State.reset.fin = false ∧ (waiting .sha1 abc).fin = false := by decide

/-- RddigReturnsSerializedWords: the first byte of the first word and the last byte of the last. -/
theorem test_meets_RddigReturnsSerializedWords :
    (finished abcSha1).fin = true ∧ (hashWordList abcSha1).length = 5 ∧ (hashWordList abcMd5).length = 4 ∧
    (serialize abcMd5).getD 0 0 = 0x90 ∧ (serialize abcMd5).getD (4 * 3 + 3) 0 = 0x72 ∧
    (serialize abcSha1).getD 0 0 = 0xa9 ∧ (serialize abcSha1).getD (4 * 4 + 3) 0 = 0x9d := by decide

/-! ## Faults -/

/-- FirstFailingCheckDecidesFault: each code, and words that are performed (section 9). -/
theorem test_meets_FirstFailingCheckDecidesFault :
    [faultOf 0x00000006 true, faultOf 0x00000021 false, faultOf 0x00004102 true, faultOf 0x00004002 true,
      faultOf 0x00000003 true, faultOf 0x00000005 false] =
      [some .illegalOp, some .reservedBits, some .countRange, some .updateAfterFinal, some .finalAfterFinal,
        some .digestNotReady] ∧
    [faultOf 0x00000011 true, faultOf 0x00004002 false, faultOf 0x00000003 false, faultOf 0x00000004 true,
      faultOf 0x00000005 true] = List.replicate 5 none := by decide

/-- FaultedCommandChangesOnlyFault: a refused command with FAULT 0 and with FAULT 4, and a performed one. -/
theorem test_meets_FaultedCommandChangesOnlyFault :
    (∃ t, step (issuing 0x00000005 zeroLanes State.reset) = .next t ∧ t.responses = [] ++ [⟨false, .empty⟩] ∧
      t.fault = 6) ∧
    (∃ t, step (issuing 0x00000005 zeroLanes { State.reset with fault := 4 }) = .next t ∧
      t.responses = [] ++ [⟨false, .empty⟩] ∧ t.fault = 4) ∧
    (∃ t, step (issuing 0x00000001 zeroLanes { State.reset with fault := 4 }) = .next t ∧
      t.responses = [] ++ [⟨true, .empty⟩] ∧ t.fault = 4) :=
  ⟨⟨_, rfl, rfl, rfl⟩, ⟨_, rfl, rfl, rfl⟩, ⟨_, rfl, rfl, rfl⟩⟩

/-- FaultIsStickyUntilReset: a command, an idle host and a reset with FAULT set. -/
theorem test_meets_FaultIsStickyUntilReset :
    ({ State.reset with fault := 4 } : State).fault ≠ 0 ∧
    (∀ rest, (issuing 0x00000005 zeroLanes { State.reset with fault := 4 }).host ≠ .reset :: rest) ∧
    (∃ t, step (issuing 0x00000005 zeroLanes { State.reset with fault := 4 }) = .next t) ∧
    (∃ t, step { State.reset with fault := 4, host := [.reset] } = .next t) :=
  ⟨by decide, fun _ h => (by cases h), ⟨_, rfl⟩, ⟨_, rfl⟩⟩

/-- CleanRunPerformedEveryCommand: INIT and RDSTAT from reset. -/
theorem test_meets_CleanRunPerformedEveryCommand :
    let s : State := { State.reset with host := [commandAction (.init .sha1), commandAction .rdstat] }
    NoReset s.host ∧ ∃ t, Host.Core.run Sys2Proof.core 2 s = .next t ∧ t.Clean :=
  ⟨by unfold NoReset; decide, ⟨_, rfl, rfl⟩⟩

/-! ## The whole machine -/

/-- OnlyTabledCommandsWriteRegisters: every command answers a next state. -/
theorem test_meets_OnlyTabledCommandsWriteRegisters :
    (∃ t, exec .rdstat State.reset = .next t) ∧ (∃ t, exec .rddig State.reset = .next t) ∧
    (∃ t, exec .final (finished abcMd5) = .next t) ∧ (∃ t, exec (.update 0 zeroLanes) (finished abcMd5) = .next t) ∧
    (∃ t, exec (.init .md5) State.reset = .next t) :=
  ⟨⟨_, rfl⟩, ⟨_, rfl⟩, ⟨_, rfl⟩, ⟨_, rfl⟩, ⟨_, rfl⟩⟩

/-- StepKeepsBlockInvariant: three waiting bytes, and a finalized block. -/
theorem test_meets_StepKeepsBlockInvariant :
    (issuing 0x00000004 zeroLanes (waiting .sha1 abc)).Inv ∧ (finished abcMd5).Inv ∧
    (∃ t, step (issuing 0x00000004 zeroLanes (waiting .sha1 abc)) = .next t) :=
  ⟨⟨by decide, by decide, by decide, by decide, by decide⟩, ⟨by decide, by decide, by decide, by decide, by decide⟩,
    ⟨_, rfl⟩⟩

/-- StaleBufferBytesAreUnobservable: two states that differ in BUF from BUF_USED on. -/
theorem test_meets_StaleBufferBytesAreUnobservable :
    let s := issuing 0x00000003 zeroLanes (waiting .md5 abc)
    let t : State := { s with buf := Memory.write [] 0 (abc ++ as 3) }
    SameComputation s t ∧ s.fault = t.fault ∧ s.responses = t.responses ∧ s.buf ≠ t.buf := by
  refine ⟨⟨rfl, rfl, rfl, rfl, rfl, rfl, fun a h => ?_⟩, rfl, rfl, by decide⟩
  have h3 : a < 3 := h
  have : ∀ k : Fin 3, Memory.readByte (Memory.write [] 0 (abc ++ as 3)) k.val =
      Memory.readByte (Memory.write [] 0 abc) k.val := by decide
  exact this ⟨a, h3⟩

/-! ## The transforms and the host's side -/

/-- RotlMovesEveryBit: the smallest and the largest rotation, of the lowest and the highest bit. -/
theorem test_meets_RotlMovesEveryBit :
    (rotl 0x80000001 1).getLsbD ((31 + 1) % 32) = true ∧ (rotl 0x80000001 1).getLsbD ((0 + 1) % 32) = true ∧
    (rotl 0x80000001 31).getLsbD ((0 + 31) % 32) = true ∧ (rotl 0x80000001 31).getLsbD ((31 + 31) % 32) = true := by
  decide

/-- MessageWordsTakeBlockBytes: the first and the last byte of a block of 64 (sections 2.1 and 3.1: the words of "abc"). -/
theorem test_meets_MessageWordsTakeBlockBytes :
    abcBlockMd5.length = 64 ∧ abcBlockSha1.length = 64 ∧ (md5MessageWords abcBlockMd5).getD 0 0 = 0x80636261 ∧
    (sha1MessageWords abcBlockSha1).getD 0 0 = 0x61626380 ∧ (sha1MessageWords abcBlockSha1).getD 15 0 = 0x00000018 := by
  decide +kernel

/-- CompressMd5RunsSixtyFourSteps: the first and the last step of each round (R121, R122). -/
theorem test_meets_CompressMd5RunsSixtyFourSteps :
    [0, 15, 16, 31, 32, 47, 48, 63].map md5Index = [0, 15, 1, 12, 5, 2, 0, 9] ∧
    [0, 15, 16, 31, 32, 47, 48, 63].map md5Shift = [7, 22, 5, 20, 4, 23, 6, 21] ∧
    (md5T.getD 0 0, md5T.getD 63 0) = (0xd76aa478, 0xeb86d391) := by decide

/-- Sha1ScheduleFollowsRecurrence: the last message word, the first and the last expanded word (section 3.1). -/
theorem test_meets_Sha1ScheduleFollowsRecurrence :
    ((sha1Schedule abcBlockSha1).getD 15 0, (sha1Schedule abcBlockSha1).getD 16 0, (sha1Schedule abcBlockSha1).getD 79 0) =
      (0x00000018, 0xc2c4c700, 0x822e0879) := by decide +kernel

/-- CompressSha1RunsEightySteps: the constants at the ends of the four groups (R154). -/
theorem test_meets_CompressSha1RunsEightySteps :
    [0, 19, 20, 39, 40, 59, 60, 79].map sha1K =
      [0x5A827999, 0x5A827999, 0x6ED9EBA1, 0x6ED9EBA1, 0x8F1BBCDC, 0x8F1BBCDC, 0xCA62C1D6, 0xCA62C1D6] := by decide

/-- AbsorbExpansionCarriesBytes: a string of 64 bytes is one chunk, one of 65 is two. -/
theorem test_meets_AbsorbExpansionCarriesBytes :
    (absorbActions (as 64)).length = 1 ∧ (absorbActions (as 65)).length = 2 ∧ absorbActions [] = [] := by
  decide +kernel

/-- HashPlanFollowsCases: a message that is not empty. -/
theorem test_meets_HashPlanFollowsCases : abc ≠ [] := by decide

/-- HashCommandsReturnMessageDigest: "abc" from reset, with another action to follow. -/
theorem test_meets_HashCommandsReturnMessageDigest :
    abc.length < 2 ^ 61 ∧
    ({ State.reset with host := hashActions .sha1 abc ++ [.reset] } : State).host = hashActions .sha1 abc ++ [.reset] :=
  ⟨by decide, rfl⟩

/-- HashCommandsReturnMessageDigest's right side: the one-piece digest of "abc" is S2. -/
theorem test_digestOf_abc :
    digestOf .md5 abc = [0x90, 0x01, 0x50, 0x98, 0x3c, 0xd2, 0x4f, 0xb0, 0xd6, 0x96, 0x3f, 0x7d, 0x28, 0xe1, 0x7f,
      0x72] := by decide +kernel

/-- The one-piece digest at the 55 / 56 boundary (section 6.1, n = 55 and n = 120, SHA-1). -/
theorem test_digestOf_boundary :
    digestOf .sha1 (as 55) = [0xc1, 0xc8, 0xbb, 0xdc, 0x22, 0x79, 0x6e, 0x28, 0xc0, 0xe1, 0x51, 0x63, 0xd2, 0x08, 0x99,
      0xb6, 0x56, 0x21, 0xd6, 0x5a] ∧
    digestOf .sha1 (as 120) = [0xf3, 0x4c, 0x14, 0x88, 0x38, 0x53, 0x46, 0xa5, 0x57, 0x09, 0xba, 0x05, 0x6d, 0xdd, 0x08,
      0x28, 0x0d, 0xd4, 0xc6, 0xd6] := by decide +kernel

/-- WideElementsFlattenInNativeOrder: the first byte of the first element and the last of the last, of two elements of 4. -/
theorem test_meets_WideElementsFlattenInNativeOrder :
    ((flattenWide .little 4 [0x01020304#32, 0x05060708#32]).getD (4 * 0 + 0) 0,
      (flattenWide .little 4 [0x01020304#32, 0x05060708#32]).getD (4 * 1 + 3) 0,
      (flattenWide .big 4 [0x01020304#32, 0x05060708#32]).getD (4 * 0 + 0) 0,
      (flattenWide .big 4 [0x01020304#32, 0x05060708#32]).getD (4 * 1 + 3) 0) = (0x04, 0x05, 0x01, 0x08) := by decide

end Sys2Proof.Tests
end

section
/-! The proof that RDSTAT returns STATUS: first every bit of STATUS, field by field (R29), then RDSTAT (R241). -/

namespace Sys2Proof.Machine

/-! ## The fields of STATUS -/

/-- A field put at bit `lo` of a word: bit k of the word is the field's own bit k - lo, which is 0 past its width. -/
theorem getLsbD_setWidth_shiftLeft {n : Nat} (x : BitVec n) (lo k : Nat) (hk : k < 32) :
    (x.setWidth 32 <<< lo : Word).getLsbD k = (decide (lo ≤ k) && x.getLsbD (k - lo)) := by
  by_cases hlo : lo ≤ k
  · simp [hk, hlo]
  · simp [hlo, Nat.lt_of_not_le hlo]

theorem finBit_getLsbD (fin : Bool) (j : Nat) : (finBit fin).getLsbD j = (decide (j = 0) && fin) := by
  cases fin <;> simp [finBit]

theorem algBit_getLsbD (alg : Alg) (j : Nat) : alg.bit.getLsbD j = (decide (j = 0) && decide (alg = .sha1)) := by
  cases alg <;> simp [Alg.bit]

/-- Bit k of STATUS is the `or` of what its four fields have there (R29). -/
theorem statusWord_getLsbD (s : State) (k : Nat) (hk : k < 32) :
    (statusWord s).getLsbD k =
      (decide (k = 0) && s.fin || decide (k = 1) && decide (s.alg = .sha1) ||
        decide (8 ≤ k) && s.bufUsed.getLsbD (k - 8) || decide (16 ≤ k) && s.fault.getLsbD (k - 16)) := by
  have halg : (decide (1 ≤ k) && decide (k - 1 = 0)) = decide (k = 1) := by
    rw [← Bool.decide_and, decide_eq_decide]
    omega
  simp only [statusWord, BitVec.getLsbD_or, getLsbD_setWidth_shiftLeft _ _ k hk, BitVec.getLsbD_setWidth, hk,
    finBit_getLsbD, algBit_getLsbD, decide_true, Bool.true_and, ← Bool.and_assoc, halg]

theorem statusWord_bit_fin (s : State) : (statusWord s).getLsbD 0 = s.fin := by
  rw [statusWord_getLsbD s 0 (by omega)]
  simp

theorem statusWord_bit_alg (s : State) : (statusWord s).getLsbD 1 = decide (s.alg = .sha1) := by
  rw [statusWord_getLsbD s 1 (by omega)]
  simp

theorem statusWord_bit_bufUsed (s : State) (k : Nat) (h : 8 ≤ k ∧ k ≤ 13) :
    (statusWord s).getLsbD k = s.bufUsed.getLsbD (k - 8) := by
  have hfin : k ≠ 0 := by omega
  have halg : k ≠ 1 := by omega
  have hfault : ¬ 16 ≤ k := by omega
  simp [statusWord_getLsbD s k (by omega), hfin, halg, h.1, hfault]

theorem statusWord_bit_fault (s : State) (k : Nat) (h : 16 ≤ k ∧ k ≤ 19) :
    (statusWord s).getLsbD k = s.fault.getLsbD (k - 16) := by
  have hfin : k ≠ 0 := by omega
  have halg : k ≠ 1 := by omega
  have hused : s.bufUsed.getLsbD (k - 8) = false := BitVec.getLsbD_of_ge _ _ (by omega)
  simp [statusWord_getLsbD s k (by omega), hfin, halg, hused, h.1]

/-- Bits 2 to 7, 14, 15 and 20 to 31 of STATUS are 0: each is past the end of every field that starts below it (R29). -/
theorem statusWord_bit_unused (s : State) (k : Nat) (hk : k < 32) (hfin : k ≠ 0) (halg : k ≠ 1)
    (hused : ¬ (8 ≤ k ∧ k ≤ 13)) (hfault : ¬ (16 ≤ k ∧ k ≤ 19)) : (statusWord s).getLsbD k = false := by
  have pastUsed (h : 8 ≤ k) : s.bufUsed.getLsbD (k - 8) = false := BitVec.getLsbD_of_ge _ _ (by omega)
  have pastFault (h : 16 ≤ k) : s.fault.getLsbD (k - 16) = false := BitVec.getLsbD_of_ge _ _ (by omega)
  simpa [statusWord_getLsbD s k hk, hfin, halg] using ⟨pastUsed, pastFault⟩

/-! ## RDSTAT -/

/-- The word 0x00000004 is RDSTAT, whatever the lanes hold (R85, R87). -/
theorem decode_rdstatWord (data : Lanes) : decode 0x00000004 data = .ok .rdstat := rfl

/-- RDSTAT, in every state, adds the response STATUS and changes nothing else (R241). -/
theorem exec_rdstat (s : State) :
    exec .rdstat s = .next { s with responses := s.responses ++ [⟨true, .status (statusWord s)⟩] } := rfl

/-- Settles O14: the word is STATUS, and each of its bits lies in exactly one of the four fields or in none. -/
theorem rdstatReturnsStatusFields : Obligations.RdstatReturnsStatusFields := by
  refine ⟨decode_rdstatWord, fun s => ⟨statusWord s, exec_rdstat s, fun k hk => ?_⟩⟩
  split_ifs with hfin halg hused hfault
  · rw [hfin, statusWord_bit_fin]
  · rw [halg, statusWord_bit_alg]
  · exact statusWord_bit_bufUsed s k hused
  · exact statusWord_bit_fault s k hfault
  · exact statusWord_bit_unused s k hk hfin halg hused hfault

end Sys2Proof.Machine
end

section
/-! Bytes of words: what the byte sequences of R11 hold, the message words a block gives (R52, R53), the length field
FINAL writes (R54, R213) and the digest RDDIG returns (R55, R214). -/

namespace Sys2Proof.Machine

/-! ## The bytes of one word -/

/-- Byte k of LE32 counted from the least-significant end is the k-th byte it was made of (R52). -/
theorem le32_extractLsb' (b : List Byte) (p k : Nat) (hk : k < 4) :
    (le32 b p).extractLsb' (8 * k) 8 = byteAt b (p + k) := by
  refine BitVec.eq_of_toNat_eq ?_
  have h0 := (byteAt b p).isLt
  have h1 := (byteAt b (p + 1)).isLt
  have h2 := (byteAt b (p + 2)).isLt
  have h3 := (byteAt b (p + 3)).isLt
  simp only [le32, BitVec.extractLsb'_toNat, BitVec.toNat_ofNat, Nat.shiftRight_eq_div_pow]
  interval_cases k
  · simp only [Nat.add_zero]
    omega
  all_goals omega

/-- BE32 is LE32 of the four bytes in reverse (R52, R53). -/
theorem be32_eq_le32 (b : List Byte) (p : Nat) :
    be32 b p = le32 [byteAt b (p + 3), byteAt b (p + 2), byteAt b (p + 1), byteAt b p] 0 := by
  refine congrArg (BitVec.ofNat 32) ?_
  simp only [byteAt, List.getD_cons_zero, List.getD_cons_succ]
  omega

/-- Byte k of BE32 counted from the most-significant end is the k-th byte it was made of (R53). -/
theorem be32_extractLsb' (b : List Byte) (p k : Nat) (hk : k < 4) :
    (be32 b p).extractLsb' (8 * (3 - k)) 8 = byteAt b (p + k) := by
  rw [be32_eq_le32, le32_extractLsb' _ _ _ (by omega)]
  interval_cases k <;> rfl

theorem extractLsb'_byte_toNat {w : Nat} (v : BitVec w) (j : Nat) :
    (v.extractLsb' (8 * j) 8).toNat = v.toNat / 2 ^ (8 * j) % 256 := by
  rw [BitVec.extractLsb'_toNat, Nat.shiftRight_eq_div_pow]

/-! ## The message words of a block -/

theorem md5MessageWords_getD (blk : List Byte) (j : Nat) (hj : j < 16) :
    (md5MessageWords blk).getD j 0 = le32 blk (4 * j) := by
  simp [md5MessageWords, List.getD_eq_getElem?_getD, hj]

theorem sha1MessageWords_getD (blk : List Byte) (j : Nat) (hj : j < 16) :
    (sha1MessageWords blk).getD j 0 = be32 blk (4 * j) := by
  simp [sha1MessageWords, List.getD_eq_getElem?_getD, hj]

/-- Settles O42: message word j is made of the four bytes from 4j on, and its bytes are these in the algorithm's
order. -/
theorem messageWordsTakeBlockBytes : Obligations.MessageWordsTakeBlockBytes := by
  intro blk j k _ hj hk
  rw [md5MessageWords_getD blk j (by omega), sha1MessageWords_getD blk j (by omega)]
  exact ⟨le32_extractLsb' blk (4 * j) k hk, be32_extractLsb' blk (4 * j) k hk⟩

/-! ## The length field of FINAL -/

/-- FINAL with FIN = 0 pads, finalizes and responds (R210). -/
theorem exec_final_of_not_fin (s : State) (hfin : s.fin = false) :
    exec .final s = .next (respond .empty (finalize s)) := by
  simp [exec, execFinal, hfin]

/-- The last write of Pad puts the length field at BUF[56..63] (R211). -/
theorem pad_buf_lengthField (s : State) (k : Nat) (hk : k < 8) :
    (pad s).buf.readByte (56 + k) = (lengthField s.alg s.lengthBits).getD k 0 :=
  readByte_write_inside _ 56 _ k (by simpa using hk) (by simp)

/-- Settles O27: the buffer is the one Pad leaves, whose last eight bytes are those of the counter, and finalizing keeps
LO and HI. -/
theorem finalWritesLengthField : Obligations.FinalWritesLengthField := by
  intro s hfin
  refine ⟨_, exec_final_of_not_fin s hfin, rfl, rfl, fun k hk => ?_⟩
  rw [respond_buf, finalize_buf, pad_buf_lengthField s k hk, ← lengthBits_toNat]
  cases s.alg with
  | md5 => rw [lengthField, leBytes_getD 8 _ k hk, extractLsb'_byte_toNat]
  | sha1 => rw [lengthField, beBytes_getD 8 _ k hk, extractLsb'_byte_toNat]

/-! ## The digest of RDDIG -/

/-- The four bytes of a state word in the digest: `le_bytes_4` for MD5, `be_bytes_4` for SHA-1 (R214). -/
def digestWordBytes : Alg → Word → List Byte
  | .md5 => leBytes 4
  | .sha1 => beBytes 4

theorem digestWordBytes_length (alg : Alg) (w : Word) : (digestWordBytes alg w).length = 4 := by
  cases alg <;> simp [digestWordBytes]

/-- The digest is the concatenation of the words' bytes, word by word (R214). -/
theorem serialize_eq_flatMap (h : HashWords) :
    serialize h = (hashWordList h).flatMap (digestWordBytes (hashAlg h)) := by
  cases h <;> simp [serialize, hashWordList, hashAlg, digestWordBytes]

/-- In a concatenation of pieces of n bytes, byte n * i + j is byte j of piece i. -/
theorem flatMap_getD {α : Type} (f : α → List Byte) (n : Nat) (hf : ∀ x, (f x).length = n) (xs : List α) (d : α)
    (i j : Nat) (hi : i < xs.length) (hj : j < n) :
    (xs.flatMap f).getD (n * i + j) 0 = (f (xs.getD i d)).getD j 0 := by
  induction xs generalizing i with
  | nil => simp at hi
  | cons x xs ih =>
    rw [List.flatMap_cons]
    cases i with
    | zero => simpa using List.getD_append _ _ _ _ (by rw [hf]; exact hj)
    | succ i =>
      have hskip : n * (i + 1) + j = n + (n * i + j) := by rw [Nat.mul_succ]; omega
      rw [hskip, List.getD_append_right _ _ _ _ (by rw [hf]; omega), hf, Nat.add_sub_cancel_left,
        ih i (by simpa using hi), List.getD_cons_succ]

/-- Byte 4i + j of the digest is byte j of word i (R55). -/
theorem serialize_getD (h : HashWords) (i j : Nat) (hi : i < (hashWordList h).length) (hj : j < 4) :
    (serialize h).getD (4 * i + j) 0 = (digestWordBytes (hashAlg h) ((hashWordList h).getD i 0)).getD j 0 := by
  rw [serialize_eq_flatMap]
  exact flatMap_getD _ 4 (digestWordBytes_length _) _ 0 i j hi hj

theorem digestBytes_eq_four_mul_numWords (alg : Alg) : Config.digestBytes alg = 4 * Config.numWords alg := by
  cases alg <;> rfl

/-- RDDIG with FIN = 1 adds the response with the digest and changes nothing else (R215). -/
theorem exec_rddig_of_fin (s : State) (hfin : s.fin = true) :
    exec .rddig s = .next { s with responses := s.responses ++ [⟨true, .digest (serialize s.h)⟩] } := by
  simp [exec, execRddig, hfin, respond]

/-- Settles O31: the response is Serialize(ALG, H), which has four bytes for each word of H. -/
theorem rddigReturnsSerializedWords : Obligations.RddigReturnsSerializedWords := by
  intro s hfin
  refine ⟨serialize s.h, exec_rddig_of_fin s hfin, ?_, ?_, fun i j hi hj => ?_⟩
  · rw [serialize_length, hashWordList_length, digestBytes_eq_four_mul_numWords]
  · rw [serialize_length]
    rfl
  · rw [serialize_getD s.h i j hi hj, ← State.alg]
    cases s.alg with
    | md5 => exact leBytes_getD 4 _ j hj
    | sha1 => exact beBytes_getD 4 _ j hj

end Sys2Proof.Machine
end

section
/-! The command words: a word's row of the command table is its operation and its reserved bits (R81, R84, R87), the
decoder performs the words of a row and faults on all others (R88, R89), and every command gets one response (R86). -/

namespace Sys2Proof

/-! ## The rows of the command table (R87) -/

/-- A word is its OP field, bits 3..0, and the 28 bits above it. -/
theorem word_eq_iff_opBits (x y : Word) :
    x = y ↔ x.extractLsb' 4 28 = y.extractLsb' 4 28 ∧ x.extractLsb' 0 4 = y.extractLsb' 0 4 := by
  have split (z : Word) : z.extractLsb' 4 28 ++ z.extractLsb' 0 4 = z :=
    (BitVec.extractLsb'_append_extractLsb'_eq_extractLsb' rfl).trans BitVec.extractLsb'_eq_self
  refine ⟨fun h => ⟨congrArg _ h, congrArg _ h⟩, fun ⟨hhigh, hop⟩ => ?_⟩
  rw [← split x, hhigh, hop, split]

/-- An operation's OP value is the OP field of its row's pattern (R81, R87). -/
theorem opOf_eq_some_iff (x : BitVec 4) (op : Op) : opOf x = some op ↔ x = opField (commandRow op).pattern := by
  revert x
  cases op <;> decide

/-- A word matches a row when it has the row's OP and no reserved bit set: the row's mask is RESMASK and the OP bits
(R84, R87). -/
theorem matchesRow_iff (w : Word) (op : Op) :
    matchesRow w op = true ↔ opOf (opField w) = some op ∧ w &&& resMask op = 0 := by
  have opBits (x : BitVec 4) : x &&& 15#4 = x := BitVec.and_allOnes
  rw [opOf_eq_some_iff, matchesRow, beq_iff_eq, word_eq_iff_opBits, word_eq_iff_opBits (w &&& resMask op), and_comm]
  cases op <;> simp [BitVec.extractLsb'_and, commandRow, resMask, opField, opBits]

/-- No word matches two rows: a row fixes OP (R87). -/
theorem matchesRow_unique (w : Word) (op op' : Op) (h : matchesRow w op = true) (h' : matchesRow w op' = true) :
    op = op' := by
  obtain ⟨hop, _⟩ := (matchesRow_iff w op).mp h
  obtain ⟨hop', _⟩ := (matchesRow_iff w op').mp h'
  exact Option.some.inj (hop.symm.trans hop')

/-! ## The words that perform (R87) -/

/-- The words that perform as `op`: those of its row, for UPDATE with COUNT <= 64 (R87). -/
def PerformsAs (w : Word) (op : Op) : Prop := matchesRow w op = true ∧ (op = .update → (countField w).toNat ≤ 64)

/-- A word performs as at most one operation. -/
theorem PerformsAs.eq_iff {w : Word} {op : Op} (h : PerformsAs w op) (op' : Op) : op = op' ↔ PerformsAs w op' :=
  ⟨fun hop => hop ▸ h, fun h' => matchesRow_unique w op op' h.1 h'.1⟩

/-- The words of every row but UPDATE's perform as they stand (R87). -/
theorem performsAs_iff_of_ne_update (w : Word) (op : Op) (h : op ≠ .update) :
    PerformsAs w op ↔ w &&& (commandRow op).mask = (commandRow op).pattern := by
  simp [PerformsAs, matchesRow, h]

/-- A word of UPDATE's row needs a COUNT of at most 64 besides (R83, R87). -/
theorem performsAs_update_iff (w : Word) :
    PerformsAs w .update ↔
      w &&& (commandRow .update).mask = (commandRow .update).pattern ∧ (countField w).toNat ≤ 64 := by
  simp [PerformsAs, matchesRow]

/-- A row whose mask leaves no bit free has one word, its pattern (R87). -/
theorem performsAs_iff_eq_pattern (w : Word) (op : Op) (hmask : (commandRow op).mask = BitVec.allOnes 32) :
    PerformsAs w op ↔ w = (commandRow op).pattern := by
  have hne : op ≠ .update := by
    rintro rfl
    exact absurd hmask (by decide)
  rw [performsAs_iff_of_ne_update w op hne, hmask, BitVec.and_allOnes]

/-! ## What the decoder answers (R88) -/

/-- A word performs as one operation, or as none and faults with one of the decoder's three codes (R88, R89). -/
theorem decode_cases (w : Word) (data : Lanes) :
    (∃ op, PerformsAs w op ∧ decode w data = .ok (dispatchOp op w data)) ∨
    ((∀ op, ¬ PerformsAs w op) ∧
      ∃ c, decode w data = .fault c ∧ (c = .illegalOp ∨ c = .reservedBits ∨ c = .countRange)) := by
  simp only [PerformsAs, matchesRow_iff]
  unfold decode
  rcases opOf (opField w) with _ | op
  · exact .inr ⟨by simp, .illegalOp, rfl, .inl rfl⟩
  · simp only
    split_ifs with hres hcount
    · exact .inr ⟨by simp_all, .reservedBits, rfl, .inr (.inl rfl)⟩
    · exact .inr ⟨by simp_all, .countRange, rfl, .inr (.inr rfl)⟩
    · exact .inl ⟨op, ⟨⟨rfl, not_not.mp hres⟩, by simp_all⟩, rfl⟩

@[simp] theorem dispatchOp_op (op : Op) (w : Word) (data : Lanes) : (dispatchOp op w data).op = op := by
  cases op <;> rfl

/-- A word decodes to a command exactly when it performs as the command's operation, with its own fields and lanes as the
operands (R87, R88). -/
theorem decode_eq_ok_iff (w : Word) (data : Lanes) (i : Instr) :
    decode w data = .ok i ↔ PerformsAs w i.op ∧ i = dispatchOp i.op w data := by
  rcases decode_cases w data with ⟨op, hp, hd⟩ | ⟨hnone, c, hd, _⟩
  · rw [hd, Decoded.ok.injEq]
    constructor
    · rintro rfl
      simpa using hp
    · rintro ⟨hi, h⟩
      rw [h, (hp.eq_iff i.op).mpr hi]
  · simp [hd, hnone]

/-- A word decodes to the command `op` makes of its fields exactly when it performs as `op`. -/
theorem decode_eq_dispatchOp_iff (w : Word) (data : Lanes) (op : Op) :
    decode w data = .ok (dispatchOp op w data) ↔ PerformsAs w op := by
  simp [decode_eq_ok_iff]

/-- An operand that decoding finds is the word's own field, so asking for some operand asks nothing more. -/
theorem exists_decode_eq_ok_iff {α : Type} (w : Word) (data : Lanes) (op : Op) (f : α → Instr)
    (hop : ∀ x, (f x).op = op) (hf : ∃ x, f x = dispatchOp op w data) :
    (∃ x, decode w data = .ok (f x)) ↔ PerformsAs w op := by
  obtain ⟨x, hx⟩ := hf
  refine ⟨fun ⟨y, hy⟩ => ?_, fun h => ⟨x, ?_⟩⟩
  · rw [← hop y]
    exact ((decode_eq_ok_iff w data (f y)).mp hy).1
  · rwa [hx, decode_eq_dispatchOp_iff]

/-- Settles O3: a word decodes to a command exactly when it performs as the command's operation, and a row fixes OP. -/
theorem decodedWordsMatchOneTableRow : Obligations.DecodedWordsMatchOneTableRow := by
  refine ⟨fun w d => ⟨?init, ?update, ?final, ?rdstat, ?rddig⟩, matchesRow_unique, fun d => ⟨rfl, rfl, rfl, rfl, rfl⟩⟩
  case init =>
    exact (exists_decode_eq_ok_iff w d .init Instr.init (fun _ => rfl) ⟨_, rfl⟩).trans
      (performsAs_iff_of_ne_update w .init (by decide))
  case update =>
    exact (exists_decode_eq_ok_iff w d .update (Instr.update · d) (fun _ => rfl) ⟨_, rfl⟩).trans
      (performsAs_update_iff w)
  case final =>
    exact (decode_eq_dispatchOp_iff w d .final).trans (performsAs_iff_of_ne_update w .final (by decide))
  case rdstat =>
    exact (decode_eq_dispatchOp_iff w d .rdstat).trans (performsAs_iff_of_ne_update w .rdstat (by decide))
  case rddig =>
    exact (decode_eq_dispatchOp_iff w d .rddig).trans (performsAs_iff_of_ne_update w .rddig (by decide))

end Sys2Proof

namespace Sys2Proof.Machine

/-! ## A step on a command word -/

/-- A step on a word that decodes is exec of the command, which is no longer to come (R31). -/
theorem step_of_decode_ok (s : State) (w : Word) (d : Lanes) (rest : List HostAction) (i : Instr)
    (hhost : s.host = .command w d :: rest) (hd : decode w d = .ok i) : step s = exec i { s with host := rest } := by
  simp [step, fetch, hhost, hd]

/-- A step on a word that does not decode is the fault action (R88, R269). -/
theorem step_of_decode_fault (s : State) (w : Word) (d : Lanes) (rest : List HostAction) (c : FaultCode)
    (hhost : s.host = .command w d :: rest) (hd : decode w d = .fault c) :
    step s = .next (raiseFault c { s with host := rest }) := by
  simp [step, fetch, hhost, hd]

/-- Settles O4: such a word performs as no operation, so decoding faults and the step is the fault action. -/
theorem unmatchedWordOnlyFaults : Obligations.UnmatchedWordOnlyFaults := by
  intro s w d rest hhost hunmatched
  rcases decode_cases w d with ⟨op, ⟨hrow, hcount⟩, _⟩ | ⟨_, c, hd, hc⟩
  · obtain ⟨hop, hlarge⟩ := hunmatched op hrow
    exact absurd (hcount hop) (Nat.not_le.mpr hlarge)
  · refine ⟨faultValue c, ?_, step_of_decode_fault s w d rest c hhost hd⟩
    rcases hc with rfl | rfl | rfl <;> decide

/-! ## The response of a command (R86) -/

/-- The response data of a performed operation (R86). -/
def performedData (op : Op) (s : State) : RespData :=
  match op with
  | .init => .empty
  | .update => .empty
  | .final => .empty
  | .rdstat => .status (statusWord s)
  | .rddig => .digest (serialize s.h)

theorem performedData_eq_empty (op : Op) (s : State) (hstat : op ≠ .rdstat) (hdig : op ≠ .rddig) :
    performedData op s = .empty := by
  cases op with
  | init | update | final => rfl
  | rdstat => exact absurd rfl hstat
  | rddig => exact absurd rfl hdig

theorem exec_total (i : Instr) (s : State) : ∃ t, exec i s = .next t := by
  cases i with
  | init alg => exact ⟨_, rfl⟩
  | update count data => simp only [exec, execUpdate]; split <;> exact ⟨_, rfl⟩
  | final => simp only [exec, execFinal]; split <;> exact ⟨_, rfl⟩
  | rdstat => exact ⟨_, rfl⟩
  | rddig => simp only [exec, execRddig]; split <;> exact ⟨_, rfl⟩

/-- A command adds one response: an empty one with ack = 0, which RDSTAT never gets, or its operation's data with
ack = 1 (R86, R269). -/
theorem exec_response (i : Instr) (s t : State) (h : exec i s = .next t) :
    t.host = s.host ∧ ∃ r, t.responses = s.responses ++ [r] ∧
      (r = ⟨false, .empty⟩ ∧ i.op ≠ .rdstat ∨ r = ⟨true, performedData i.op s⟩) := by
  rcases exec_cases i s t h with ⟨alg, rfl, rfl⟩ | ⟨count, data, rfl, ⟨_, rfl⟩ | ⟨_, rfl⟩⟩ |
    ⟨rfl, ⟨_, rfl⟩ | ⟨_, rfl⟩⟩ | ⟨rfl, rfl⟩ | ⟨rfl, ⟨_, rfl⟩ | ⟨_, rfl⟩⟩
  · exact ⟨rfl, _, rfl, .inr rfl⟩
  · exact ⟨rfl, _, rfl, .inl ⟨rfl, nofun⟩⟩
  · exact ⟨by simp, ⟨true, .empty⟩, by simp, .inr rfl⟩
  · exact ⟨rfl, _, rfl, .inl ⟨rfl, nofun⟩⟩
  · exact ⟨rfl, _, rfl, .inr rfl⟩
  · exact ⟨rfl, _, rfl, .inr rfl⟩
  · exact ⟨rfl, _, rfl, .inr rfl⟩
  · exact ⟨rfl, _, rfl, .inl ⟨rfl, nofun⟩⟩

/-- Settles O12: a word that does not decode gets the fault's response; one that does gets the response of its
operation, which is RDSTAT or RDDIG for the one word of its row. -/
theorem everyCommandGetsOneResponse : Obligations.EveryCommandGetsOneResponse := by
  intro s w d rest hhost
  rcases decode_cases w d with ⟨op, hp, hd⟩ | ⟨hnone, c, hd, _⟩
  · have hstat : op = .rdstat ↔ w = 0x00000004 := (hp.eq_iff .rdstat).trans (performsAs_iff_eq_pattern w .rdstat rfl)
    have hdig : op = .rddig ↔ w = 0x00000005 := (hp.eq_iff .rddig).trans (performsAs_iff_eq_pattern w .rddig rfl)
    obtain ⟨t, ht⟩ := exec_total (dispatchOp op w d) { s with host := rest }
    obtain ⟨hrest, r, hresp, hr⟩ := exec_response _ _ _ ht
    rw [dispatchOp_op] at hr
    refine ⟨t, r, (step_of_decode_ok s w d rest _ hhost hd).trans ht, hrest, hresp, ?_⟩
    rcases hr with ⟨rfl, hne⟩ | rfl
    · exact ⟨fun _ => rfl, fun h4 => absurd (hstat.mpr h4) hne, nofun, fun _ _ => rfl⟩
    · refine ⟨nofun, fun h4 => ?_, fun _ h5 => ?_, fun h4 h5 => ?_⟩
      · obtain rfl := hstat.mpr h4
        exact ⟨rfl, rfl⟩
      · obtain rfl := hdig.mpr h5
        exact ⟨serialize s.h, rfl, rfl, serialize_length s.h⟩
      · exact performedData_eq_empty op _ (mt hstat.mp h4) (mt hdig.mp h5)
  · refine ⟨_, ⟨false, .empty⟩, step_of_decode_fault s w d rest c hhost hd, rfl, rfl, fun _ => rfl, fun h4 => ?_, nofun,
      fun _ _ => rfl⟩
    exact absurd ((performsAs_iff_eq_pattern w .rdstat rfl).mpr h4) (hnone .rdstat)

end Sys2Proof.Machine
end

section
/-! The MD5 round functions (R115 to R119): which steps use each, and their values at a word of ones and a word of
zeros (40_md5_compression.md section 3). -/

namespace Sys2Proof.Machine

/-! ## The groups of sixteen steps (R119) -/

/-- The quotient i / 16 selects the function; each group of steps is told here by its last step number. -/
theorem md5Fun_eq_ite (i : Nat) (b c d : Word) (h : i < 64) :
    md5Fun i b c d =
      if i ≤ 15 then md5F b c d else if i ≤ 31 then md5G b c d else if i ≤ 47 then md5H b c d else md5I b c d := by
  split_ifs with h15 h31 h47
  · simp only [md5Fun, show i / 16 = 0 by omega]
  · simp only [md5Fun, show i / 16 = 1 by omega]
  · simp only [md5Fun, show i / 16 = 2 by omega]
  · simp only [md5Fun, show i / 16 = 3 by omega]

/-! ## Corners (R115 to R118)

The library's lemmas speak of `BitVec.allOnes 32`, which is the rules' word 0xFFFFFFFF; `0xFFFFFFFF#32` is the form
`simp` gives that word. -/

theorem ones_and (x : Word) : 0xFFFFFFFF#32 &&& x = x := BitVec.allOnes_and

theorem ones_or (x : Word) : 0xFFFFFFFF#32 ||| x = 0xFFFFFFFF#32 := BitVec.allOnes_or

theorem xor_ones (x : Word) : x ^^^ 0xFFFFFFFF#32 = ~~~x := BitVec.xor_allOnes

theorem md5F_ones (c d : Word) : md5F 0xFFFFFFFF c d = c := by
  simp [md5F, ones_and]

theorem md5F_zero (c d : Word) : md5F 0 c d = d := by
  simp [md5F, ones_and]

/-- G is F with the last operand as the selector. -/
theorem md5G_eq_md5F (b c d : Word) : md5G b c d = md5F d b c := rfl

theorem md5G_ones (b c : Word) : md5G b c 0xFFFFFFFF = b := (md5G_eq_md5F b c _).trans (md5F_ones b c)

theorem md5G_zero (b c : Word) : md5G b c 0 = c := (md5G_eq_md5F b c _).trans (md5F_zero b c)

theorem md5H_self (b d : Word) : md5H b b d = d := by
  simp [md5H]

theorem md5I_ones (c d : Word) : md5I 0xFFFFFFFF c d = ~~~c := by
  simp [md5I, ones_or, xor_ones]

/-- Settles O40: the steps are `md5Fun_eq_ite`, the formulas are the definitions, the corners are the lemmas above, and
the values at fixed words are computed. -/
theorem md5RoundFunctions : Obligations.Md5RoundFunctions := by
  refine ⟨md5Fun_eq_ite, fun b c d => ?_, by decide⟩
  exact ⟨rfl, rfl, rfl, rfl, md5F_ones c d, md5F_zero c d, md5G_ones b c, md5G_zero b c, md5H_self b d, md5I_ones c d⟩

end Sys2Proof.Machine
end

section
/-! The SHA-1 message schedule (R151, R152): each expansion step appends one word and keeps those before it, so the
recurrence that held when a word was appended holds in the finished schedule. -/

namespace Sys2Proof.Machine

/-! ## One expansion step -/

/-- The schedule before any expansion is the message words (R151). -/
theorem sha1ScheduleTo_zero (blk : List Byte) : sha1ScheduleTo 0 blk = sha1MessageWords blk := rfl

/-- An expansion step appends one word (R152). -/
theorem sha1ScheduleTo_succ (n : Nat) (blk : List Byte) :
    sha1ScheduleTo (n + 1) blk = sha1ScheduleTo n blk ++ [sha1Expand (sha1ScheduleTo n blk) (16 + n)] := by
  simp [sha1ScheduleTo, List.range_succ]

@[simp] theorem sha1ScheduleTo_length (n : Nat) (blk : List Byte) : (sha1ScheduleTo n blk).length = 16 + n := by
  induction n with
  | zero => simp [sha1ScheduleTo_zero, sha1MessageWords]
  | succ n ih => simp [sha1ScheduleTo_succ, ih, Nat.add_assoc]

/-! ## What later steps keep -/

/-- The words present after k expansion steps stay as they are in every later one. -/
theorem sha1ScheduleTo_getD_of_le (blk : List Byte) {k n : Nat} (hkn : k ≤ n) (j : Nat) (hj : j < 16 + k) :
    (sha1ScheduleTo n blk).getD j 0 = (sha1ScheduleTo k blk).getD j 0 := by
  induction n, hkn using Nat.le_induction with
  | base => rfl
  | succ n hkn ih =>
    rw [sha1ScheduleTo_succ, List.getD_append _ _ _ _ (by rw [sha1ScheduleTo_length]; omega), ih]

/-- An expanded word depends only on words before its own index (R152). -/
theorem sha1Expand_congr {v w : List Word} {t : Nat} (ht : 0 < t) (h : ∀ j < t, v.getD j 0 = w.getD j 0) :
    sha1Expand v t = sha1Expand w t := by
  rw [sha1Expand, sha1Expand, h (t - 3) (by omega), h (t - 8) (by omega), h (t - 14) (by omega), h (t - 16) (by omega)]

/-- The first 16 words of every schedule are the block's words, big-endian (R151). -/
theorem sha1ScheduleTo_getD_message (n : Nat) (blk : List Byte) (j : Nat) (hj : j < 16) :
    (sha1ScheduleTo n blk).getD j 0 = be32 blk (4 * j) := by
  rw [sha1ScheduleTo_getD_of_le blk (Nat.zero_le n) j hj, sha1ScheduleTo_zero, sha1MessageWords_getD blk j hj]

/-- Each further word of a schedule is the expansion of that same schedule at its index (R152). -/
theorem sha1ScheduleTo_getD_expanded (n : Nat) (blk : List Byte) (k : Nat) (hk : k < n) :
    (sha1ScheduleTo n blk).getD (16 + k) 0 = sha1Expand (sha1ScheduleTo n blk) (16 + k) := by
  calc (sha1ScheduleTo n blk).getD (16 + k) 0
      = (sha1ScheduleTo (k + 1) blk).getD (16 + k) 0 := sha1ScheduleTo_getD_of_le blk hk _ (by omega)
    _ = sha1Expand (sha1ScheduleTo k blk) (16 + k) := by
        rw [sha1ScheduleTo_succ, List.getD_append_right _ _ _ _ (by simp)]
        simp
    _ = sha1Expand (sha1ScheduleTo n blk) (16 + k) :=
        sha1Expand_congr (by omega) fun j hj => (sha1ScheduleTo_getD_of_le blk hk.le j hj).symm

/-! ## The schedule of a block -/

/-- The schedule is the message words and 64 expansion steps (R152). -/
theorem sha1Schedule_eq (blk : List Byte) : sha1Schedule blk = sha1ScheduleTo 64 blk := rfl

/-- Settles O44: the three parts are the length, the message words and the expanded words of 64 expansion steps. -/
theorem sha1ScheduleFollowsRecurrence : Obligations.Sha1ScheduleFollowsRecurrence := by
  intro blk
  rw [sha1Schedule_eq]
  refine ⟨sha1ScheduleTo_length 64 blk, fun j hj => sha1ScheduleTo_getD_message 64 blk j (by omega),
    fun t ht htop => ?_⟩
  obtain ⟨k, rfl⟩ := Nat.exists_eq_add_of_le ht
  exact sha1ScheduleTo_getD_expanded 64 blk k (by omega)

end Sys2Proof.Machine
end

section
/-! The bit-length counter: what CounterAdd makes of LO, HI and L (R181, R184), and that UPDATE alone counts. -/

namespace Sys2Proof.Machine

/-! ## CounterAdd -/

theorem counterAdd_lo_toNat (n : Nat) (s : State) :
    (counterAdd n s).lo.toNat = (s.lo.toNat + n * 8) % 2 ^ 32 := by
  rw [counterAdd_lo, BitVec.toNat_ofNat]

theorem counterAdd_hi_toNat (n : Nat) (s : State) :
    (counterAdd n s).hi.toNat =
      if 2 ^ 32 ≤ s.lo.toNat + n * 8 then (s.hi.toNat + 1) % 2 ^ 32 else s.hi.toNat := by
  rw [counterAdd_hi]
  split
  · exact BitVec.toNat_add s.hi 1
  · rfl

/-- L grows by 8 * n mod 2^64 (R184). CounterAdd carries at most one into HI, which is all of the carry when the bits
added are fewer than 2^32. -/
theorem counterAdd_bitLength (n : Nat) (s : State) (hn : n * 8 < 2 ^ 32) :
    (counterAdd n s).bitLength = (s.bitLength + 8 * n) % 2 ^ 64 := by
  have hlo := s.lo.isLt
  have hhi := s.hi.isLt
  simp only [State.bitLength, counterAdd_lo_toNat, counterAdd_hi_toNat]
  split <;> omega

/-! ## UPDATE and FINAL -/

/-- UPDATE while FIN = 0 counts its bytes, absorbs them and responds (R180). -/
theorem exec_update_of_not_fin (count : BitVec 7) (d : Lanes) (s : State) (hfin : s.fin = false) :
    exec (.update count d) s =
      .next (respond .empty (absorb (messageBytes count d) (counterAdd count.toNat s))) := by
  simp [exec, execUpdate, hfin]

/-- FINAL leaves LO and HI as they are, whether it is refused or performed (R210, R269). -/
theorem exec_final_counter (s t : State) (h : exec .final s = .next t) : t.lo = s.lo ∧ t.hi = s.hi := by
  rcases exec_cases .final s t h with ⟨_, ⟨⟩, _⟩ | ⟨_, _, ⟨⟩, _⟩ | ⟨_, ⟨_, rfl⟩ | ⟨_, rfl⟩⟩ | ⟨⟨⟩, _⟩ | ⟨⟨⟩, _⟩
  · exact ⟨raiseFault_lo _ s, raiseFault_hi _ s⟩
  · exact ⟨finalize_lo s, finalize_hi s⟩

/-- Settles O21: absorbing and responding leave LO, HI and FAULT alone, so UPDATE does to the counter what CounterAdd
does. -/
theorem updateCountsMessageBits : Obligations.UpdateCountsMessageBits := by
  refine ⟨exec_final_counter, fun count d s hcount hfin => ⟨_, exec_update_of_not_fin count d s hfin, ?_⟩⟩
  simp only [respond_lo, respond_hi, respond_fault, absorb_lo, absorb_hi, absorb_fault, counterAdd_fault]
  exact ⟨counterAdd_lo_toNat _ s, counterAdd_hi_toNat _ s, counterAdd_bitLength _ s (by omega), trivial⟩

end Sys2Proof.Machine
end

section
/-! The finalized block (R217): what a performed FINAL leaves, and that with FIN = 1 every command but INIT only responds
and at most latches a fault. -/

namespace Sys2Proof.Machine

/-- The last step of Pad compresses the block it has just laid out in BUF (R211). -/
theorem pad_h (s : State) :
    (pad s).h = compress (padOverflow (padMark s)).h ((pad s).buf.read 0 64) := rfl

/-- An overflow block leaves the algorithm of the state words as it is: `finalize_alg` before the last compression. -/
theorem hashAlg_padOverflow (s : State) : hashAlg (padOverflow (padMark s)).h = s.alg := by
  have h := finalize_alg s
  rwa [State.alg, finalize_h, pad_h, hashAlg_compress] at h

/-- With FIN = 1 every command but INIT adds a response and may latch a fault, and changes nothing else: UPDATE and
FINAL are refused, and RDSTAT and RDDIG only read (R217, R265, R266). -/
theorem exec_of_fin (i : Instr) (s t : State) (hfin : s.fin = true) (hinit : ∀ alg, i ≠ .init alg)
    (h : exec i s = .next t) :
    ∃ fault r, t = { s with fault := fault, responses := s.responses ++ [r] } := by
  rcases exec_cases i s t h with ⟨alg, rfl, _⟩ | ⟨_, _, _, ⟨_, rfl⟩ | ⟨hfin0, _⟩⟩ |
    ⟨_, ⟨_, rfl⟩ | ⟨hfin0, _⟩⟩ | ⟨_, rfl⟩ | ⟨_, ⟨_, rfl⟩ | ⟨hfin0, _⟩⟩
  · exact absurd rfl (hinit alg)
  · exact ⟨_, _, rfl⟩
  · exact absurd (hfin.symm.trans hfin0) nofun
  · exact ⟨_, _, rfl⟩
  · exact absurd (hfin.symm.trans hfin0) nofun
  · exact ⟨_, _, rfl⟩
  · exact ⟨_, _, rfl⟩
  · exact absurd (hfin.symm.trans hfin0) nofun

/-- `exec_of_fin` for a step: a word that does not decode takes the fault action, which also only latches and responds
(R88, R269). -/
theorem step_of_fin (s t : State) (w : Word) (d : Lanes) (rest : List HostAction)
    (hhost : s.host = .command w d :: rest) (hfin : s.fin = true) (hinit : ∀ alg, decode w d ≠ .ok (.init alg))
    (h : step s = .next t) :
    ∃ fault r, t = { s with host := rest, fault := fault, responses := s.responses ++ [r] } := by
  rcases hd : decode w d with i | c
  · rw [step_of_decode_ok s w d rest i hhost hd] at h
    exact exec_of_fin i { s with host := rest } t hfin (fun alg hi => hinit alg (by rw [hd, hi])) h
  · rw [step_of_decode_fault s w d rest c hhost hd] at h
    obtain rfl := Host.Outcome.next.inj h
    exact ⟨_, _, rfl⟩

/-- Settles O28: the last block of Pad is the one BUF holds, and a step of a finalized block on a command other than
INIT writes the host's actions, FAULT and the responses only. -/
theorem finalizedDigestIsKept : Obligations.FinalizedDigestIsKept := by
  refine ⟨fun s hfin => ?_, fun s t w d rest hhost hfin hinit hstep => ?_⟩
  · exact ⟨_, _, exec_final_of_not_fin s hfin, pad_h s, hashAlg_padOverflow s, rfl, rfl, rfl, rfl, finalize_alg s, rfl⟩
  · obtain ⟨fault, r, rfl⟩ := step_of_fin s t w d rest hhost hfin hinit hstep
    exact ⟨rfl, rfl, hfin, rfl, rfl⟩

end Sys2Proof.Machine
end

section
/-! The proof that INIT begins a computation (R240): its word, what STATUS is while nothing waits and nothing has faulted,
and INIT itself. -/

namespace Sys2Proof.Machine

/-! ## INIT -/

/-- The word of INIT as R240 writes it: ALG at bit 4. -/
theorem encode_init (alg : Alg) :
    encode (.init alg) = 0x00000001#32 ||| ((if alg = .sha1 then 1#32 else 0#32) <<< 4) := by
  cases alg <;> rfl

/-- The word of INIT decodes to it, whatever the lanes hold (R85, R87). -/
theorem decode_encode_init (alg : Alg) (data : Lanes) : decode (encode (.init alg)) data = .ok (.init alg) := by
  cases alg <;> rfl

/-- INIT, in every state, starts the computation and responds with no data (R240). -/
theorem exec_init (alg : Alg) (s : State) :
    exec (.init alg) s = .next (respond .empty (startComputation alg s)) := rfl

/-! ## STATUS after INIT -/

/-- With FIN, BUF_USED and FAULT all 0, ALG is all that STATUS shows (R29). -/
theorem statusWord_of_empty (s : State) (hfin : s.fin = false) (hused : s.bufUsed = 0) (hfault : s.fault = 0) :
    statusWord s = s.alg.bit.setWidth 32 <<< 1 := by
  simp [statusWord, finBit, hfin, hused, hfault]

/-- INIT with FAULT = 0 leaves a STATUS that shows ALG alone (R29, R240). -/
theorem statusWord_after_init (alg : Alg) (s : State) (hfault : s.fault = 0) :
    statusWord (respond .empty (startComputation alg s)) = alg.bit.setWidth 32 <<< 1 := by
  rw [statusWord_of_empty (respond .empty (startComputation alg s)) rfl rfl hfault, respond_alg, startComputation_alg]

/-- Settles O13: every field of INIT's next state is the one `startComputation` writes, and responding adds the response
alone. -/
theorem initStartsComputation : Obligations.InitStartsComputation := by
  intro alg s
  refine ⟨_, exec_init alg s, startComputation_alg alg s, rfl, rfl, rfl, rfl, rfl, fun _ => rfl, rfl, rfl, rfl, rfl,
    ?sha1Words, ?sha1Status, ?word⟩
  case sha1Words =>
    rintro rfl
    rfl
  case sha1Status =>
    rintro rfl hfault
    exact statusWord_after_init .sha1 s hfault
  case word =>
    intro d
    rw [← encode_init, decode_encode_init]

end Sys2Proof.Machine
end

section
/-! Faults (60_exceptions.md): the decoder's checks on the word's numeric value and the commands' state checks, in the order
of `faultOf` (R262 to R268), and what a command word does by what `faultOf` answers (R269, R270). -/

namespace Sys2Proof

/-! ## The decoder's checks on the numeric value of the word (R81, R83, R84) -/

theorem opField_toNat (w : Word) : (opField w).toNat = w.toNat % 16 := by
  simp [opField]

theorem countField_toNat (w : Word) : (countField w).toNat = w.toNat / 256 % 128 := by
  simp [countField, Nat.shiftRight_eq_div_pow]

/-- The reserved OP values are 0x0 and 0x6..0xF (R81). -/
theorem opOf_eq_none_iff (x : BitVec 4) : opOf x = none ↔ x.toNat = 0 ∨ 6 ≤ x.toNat := by
  revert x
  decide

/-- A word's OP as a number is that of its row's pattern (R81, R87). -/
theorem toNat_mod_of_opOf (w : Word) (op : Op) (h : opOf (opField w) = some op) :
    w.toNat % 16 = (opField (commandRow op).pattern).toNat := by
  rw [← opField_toNat, (opOf_eq_some_iff _ op).mp h]

/-- A number meets no bit of a mask of n bits from bit lo on exactly when that field of it is 0. -/
theorem and_fieldMask_eq_zero_iff (x lo n : Nat) : x &&& ((2 ^ n - 1) <<< lo) = 0 ↔ x / 2 ^ lo % 2 ^ n = 0 := by
  have hfield : x &&& ((2 ^ n - 1) <<< lo) = ((x >>> lo) &&& (2 ^ n - 1)) <<< lo := by
    apply Nat.eq_of_testBit_eq
    intro k
    by_cases hk : lo ≤ k <;> simp [hk, Bool.and_comm]
  rw [hfield, Nat.shiftLeft_eq_zero_iff, Nat.and_two_pow_sub_one_eq_mod, Nat.shiftRight_eq_div_pow]

/-- A number of lo + n bits meets no bit of a mask of its top n bits exactly when it is below 2 ^ lo. -/
theorem and_topMask_eq_zero_iff (x lo n : Nat) (hx : x < 2 ^ (lo + n)) :
    x &&& ((2 ^ n - 1) <<< lo) = 0 ↔ x < 2 ^ lo := by
  have htop : x / 2 ^ lo < 2 ^ n := Nat.div_lt_of_lt_mul (by rwa [← pow_add])
  rw [and_fieldMask_eq_zero_iff, Nat.mod_eq_of_lt htop, Nat.div_eq_zero_iff_lt (by positivity)]

theorem word_and_eq_zero_iff (w mask : Word) : w &&& mask = 0 ↔ w.toNat &&& mask.toNat = 0 := by
  rw [← BitVec.toNat_inj, BitVec.toNat_and]
  rfl

/-- An INIT word has a reserved bit set when a bit from bit 5 on is (R84). -/
theorem and_resMask_init_ne_zero_iff (w : Word) : w &&& resMask .init ≠ 0 ↔ 32 ≤ w.toNat := by
  rw [ne_eq, word_and_eq_zero_iff, ← not_lt, not_iff_not]
  exact and_topMask_eq_zero_iff w.toNat 5 27 w.isLt

/-- An UPDATE word has a reserved bit set when one of bits 7..4 or a bit from bit 15 on is (R84). -/
theorem and_resMask_update_ne_zero_iff (w : Word) :
    w &&& resMask .update ≠ 0 ↔ w.toNat / 16 % 16 ≠ 0 ∨ 2 ^ 15 ≤ w.toNat := by
  have hmask : (resMask .update).toNat = (2 ^ 4 - 1) <<< 4 ||| (2 ^ 17 - 1) <<< 15 := rfl
  rw [ne_eq, word_and_eq_zero_iff, ← not_lt, ← not_and_or, not_iff_not, hmask, Nat.and_or_distrib_left,
    Nat.or_eq_zero_iff]
  exact and_congr (and_fieldMask_eq_zero_iff w.toNat 4 4) (and_topMask_eq_zero_iff w.toNat 15 17 w.isLt)

/-- A FINAL, RDSTAT or RDDIG word has a reserved bit set when a bit from bit 4 on is (R84). -/
theorem and_resMask_ne_zero_iff_of_opOnly (w : Word) (op : Op) (hmask : resMask op = 0xFFFFFFF0) :
    w &&& resMask op ≠ 0 ↔ 16 ≤ w.toNat := by
  rw [hmask, ne_eq, word_and_eq_zero_iff, ← not_lt, not_iff_not]
  exact and_topMask_eq_zero_iff w.toNat 4 28 w.isLt

end Sys2Proof

namespace Sys2Proof.Machine

/-! ## The state check of each command (R265 to R267) -/

/-- The fault of an operation's own state check, given FIN; each operation has at most one (R268). -/
def stateFault (op : Op) (fin : Bool) : Option FaultCode :=
  match op with
  | .init => none
  | .update => if fin then some .updateAfterFinal else none
  | .final => if fin then some .finalAfterFinal else none
  | .rdstat => none
  | .rddig => if fin then none else some .digestNotReady

/-- UPDATE while FIN = 1 is the fault action (R265). -/
theorem exec_update_of_fin (count : BitVec 7) (d : Lanes) (s : State) (hfin : s.fin = true) :
    exec (.update count d) s = .next (raiseFault .updateAfterFinal s) := by
  simp [exec, execUpdate, hfin]

/-- FINAL while FIN = 1 is the fault action (R266). -/
theorem exec_final_of_fin (s : State) (hfin : s.fin = true) :
    exec .final s = .next (raiseFault .finalAfterFinal s) := by
  simp [exec, execFinal, hfin]

/-- RDDIG while FIN = 0 is the fault action (R267). -/
theorem exec_rddig_of_not_fin (s : State) (hfin : s.fin = false) :
    exec .rddig s = .next (raiseFault .digestNotReady s) := by
  simp [exec, execRddig, hfin]

/-- Settles O17: such an UPDATE is the fault action with code 4, which latches and responds and does nothing else. -/
theorem updateRefusedAfterFinal : Obligations.UpdateRefusedAfterFinal :=
  exec_update_of_fin

/-- Settles O24: such a FINAL is the fault action with code 5. -/
theorem finalRefusedAfterFinal : Obligations.FinalRefusedAfterFinal :=
  exec_final_of_fin

/-- Settles O30: such an RDDIG is the fault action with code 6. -/
theorem rddigRefusedBeforeFinal : Obligations.RddigRefusedBeforeFinal :=
  exec_rddig_of_not_fin

/-! ## A command by its state check: refused, or performed -/

/-- What a performed command leaves before its response (R240, R180, R210, R241, R215). -/
def performed : Instr → State → State
  | .init alg, s => startComputation alg s
  | .update count data, s => absorb (messageBytes count data) (counterAdd count.toNat s)
  | .final, s => finalize s
  | .rdstat, s => s
  | .rddig, s => s

@[simp] theorem performed_fault (i : Instr) (s : State) : (performed i s).fault = s.fault := by
  cases i <;> simp [performed]

@[simp] theorem performed_responses (i : Instr) (s : State) : (performed i s).responses = s.responses := by
  cases i <;> simp [performed]

/-- A command whose state check fails is the fault action with that check's code, and nothing else. -/
theorem exec_of_stateFault (i : Instr) (s : State) (c : FaultCode) (h : stateFault i.op s.fin = some c) :
    exec i s = .next (raiseFault c s) := by
  cases i with
  | init alg => cases h
  | update count data =>
    obtain ⟨hfin, ⟨⟩⟩ := Option.ite_none_right_eq_some.mp h
    exact exec_update_of_fin count data s hfin
  | final =>
    obtain ⟨hfin, ⟨⟩⟩ := Option.ite_none_right_eq_some.mp h
    exact exec_final_of_fin s hfin
  | rdstat => cases h
  | rddig =>
    obtain ⟨hfin, ⟨⟩⟩ := Option.ite_none_left_eq_some.mp h
    exact exec_rddig_of_not_fin s (Bool.eq_false_of_not_eq_true hfin)

/-- A command whose state check passes is performed, and responds with ack = 1 and its operation's data. -/
theorem exec_of_stateFault_eq_none (i : Instr) (s : State) (h : stateFault i.op s.fin = none) :
    exec i s = .next (respond (performedData i.op s) (performed i s)) := by
  cases i with
  | init alg => exact exec_init alg s
  | update count data => exact exec_update_of_not_fin count data s (by simpa [Instr.op, stateFault] using h)
  | final => exact exec_final_of_not_fin s (by simpa [Instr.op, stateFault] using h)
  | rdstat => exact exec_rdstat s
  | rddig => exact exec_rddig_of_fin s (by simpa [Instr.op, stateFault] using h)

/-! ## The order of the checks (R268) -/

/-- The fault of a command word by what the decoder answers: the decoder's own, or else the command's state check. -/
def faultOfDecoded (fin : Bool) : Decoded → Option FaultCode
  | .ok i => stateFault i.op fin
  | .fault c => some c

/-- The checks of a word of a defined operation, in order: its reserved bits, UPDATE's COUNT, FIN (R88, R268). -/
theorem faultOfDecoded_of_opOf (w : Word) (data : Lanes) (fin : Bool) (op : Op) (hop : opOf (opField w) = some op) :
    faultOfDecoded fin (decode w data) =
      if w &&& resMask op ≠ 0 then some .reservedBits
      else if op = .update ∧ 64 < (countField w).toNat then some .countRange
      else stateFault op fin := by
  simp only [decode, hop]
  split_ifs <;> simp only [faultOfDecoded, dispatchOp_op]

/-- `faultOf` is the decoder's fault, or else the command's state check (R268). -/
theorem faultOf_eq (w : Word) (data : Lanes) (fin : Bool) : faultOf w fin = faultOfDecoded fin (decode w data) := by
  rcases hop : opOf (opField w) with _ | op
  · have hreserved : w.toNat % 16 = 0 ∨ 6 ≤ w.toNat % 16 := opField_toNat w ▸ (opOf_eq_none_iff _).mp hop
    simp [decode, hop, faultOf, hreserved, faultOfDecoded]
  · rw [faultOfDecoded_of_opOf w data fin op hop, faultOf, toNat_mod_of_opOf w op hop]
    cases op with
    | init =>
      simp only [and_resMask_init_ne_zero_iff]
      rfl
    | update =>
      simp only [and_resMask_update_ne_zero_iff, countField_toNat, true_and]
      rfl
    | final =>
      simp only [and_resMask_ne_zero_iff_of_opOnly w .final rfl]
      cases fin <;> rfl
    | rdstat =>
      simp only [and_resMask_ne_zero_iff_of_opOnly w .rdstat rfl]
      rfl
    | rddig =>
      simp only [and_resMask_ne_zero_iff_of_opOnly w .rddig rfl]
      cases fin <;> rfl

/-! ## A step on a command word by `faultOf` -/

/-- A word with a fault is the fault action with that code (R269). -/
theorem step_of_faultOf (s : State) (w : Word) (d : Lanes) (rest : List HostAction) (c : FaultCode)
    (hhost : s.host = .command w d :: rest) (hfault : faultOf w s.fin = some c) :
    step s = .next (raiseFault c { s with host := rest }) := by
  rw [faultOf_eq w d] at hfault
  rcases hd : decode w d with i | c' <;> rw [hd] at hfault
  · exact (step_of_decode_ok s w d rest i hhost hd).trans (exec_of_stateFault i _ c hfault)
  · obtain rfl := Option.some.inj hfault
    exact step_of_decode_fault s w d rest c' hhost hd

/-- A word without a fault is performed as the command it decodes to. -/
theorem step_of_faultOf_eq_none (s : State) (w : Word) (d : Lanes) (rest : List HostAction)
    (hhost : s.host = .command w d :: rest) (hfault : faultOf w s.fin = none) :
    ∃ i data, step s = .next (respond data (performed i { s with host := rest })) := by
  rw [faultOf_eq w d] at hfault
  rcases hd : decode w d with i | c <;> rw [hd] at hfault
  · exact ⟨i, _, (step_of_decode_ok s w d rest i hhost hd).trans (exec_of_stateFault_eq_none i _ hfault)⟩
  · cases hfault

/-- Settles O32: a word with a fault takes the fault action, and one without is performed, which keeps FAULT. -/
theorem firstFailingCheckDecidesFault : Obligations.FirstFailingCheckDecidesFault := by
  refine ⟨rfl, fun s w d rest hhost => ?_⟩
  rcases hfault : faultOf w s.fin with _ | c
  · obtain ⟨i, data, hstep⟩ := step_of_faultOf_eq_none s w d rest hhost hfault
    exact ⟨_, data, hstep, by simp, by simp⟩
  · exact step_of_faultOf s w d rest c hhost hfault

/-- The codes a fault writes are 1 to 6 (R261). -/
theorem faultValue_range (c : FaultCode) : 1 ≤ (faultValue c).toNat ∧ (faultValue c).toNat ≤ 6 := by
  cases c <;> decide

theorem latch_of_ne_zero (old : BitVec 4) (c : FaultCode) (hset : old ≠ 0) : latch old c = old := if_neg hset

/-- Settles O33: the fault action responds with ack = 0 and changes FAULT alone, as the latch does; a performed command
responds with ack = 1 and keeps FAULT. -/
theorem faultedCommandChangesOnlyFault : Obligations.FaultedCommandChangesOnlyFault := by
  intro s t w d rest r hhost hstep hresp
  rcases hfault : faultOf w s.fin with _ | c
  · obtain ⟨i, data, hperf⟩ := step_of_faultOf_eq_none s w d rest hhost hfault
    obtain rfl := Host.Outcome.next.inj (hperf.symm.trans hstep)
    obtain rfl : ⟨true, data⟩ = r := by simpa using hresp
    exact ⟨nofun, fun _ => by simp⟩
  · obtain rfl := Host.Outcome.next.inj ((step_of_faultOf s w d rest c hhost hfault).symm.trans hstep)
    obtain rfl : ⟨false, .empty⟩ = r := by simpa using hresp
    refine ⟨fun _ => ⟨rfl, latch_of_ne_zero s.fault c, fun hclear => ⟨c, rfl, ?_⟩⟩, nofun⟩
    rw [raiseFault_fault, latch, if_pos hclear]
    exact ⟨rfl, faultValue_range c⟩

/-! ## FAULT is sticky, and does not reach what a command does (R270) -/

/-- A command keeps a FAULT that is set, whether it is refused or performed. -/
theorem exec_keeps_fault_of_ne_zero (i : Instr) (s t : State) (hset : s.fault ≠ 0) (h : exec i s = .next t) :
    t.fault = s.fault := by
  rcases hcheck : stateFault i.op s.fin with _ | c
  · obtain rfl := Host.Outcome.next.inj ((exec_of_stateFault_eq_none i s hcheck).symm.trans h)
    rw [respond_fault, performed_fault]
  · obtain rfl := Host.Outcome.next.inj ((exec_of_stateFault i s c hcheck).symm.trans h)
    exact latch_of_ne_zero s.fault c hset

theorem step_keeps_fault_of_ne_zero (s t : State) (hset : s.fault ≠ 0) (hreset : ∀ rest, s.host ≠ .reset :: rest)
    (h : step s = .next t) : t.fault = s.fault := by
  rcases step_cases s t h with ⟨_, rfl⟩ | ⟨rest, hhost, _⟩ | ⟨w, d, rest, i, _, _, hexec⟩ |
    ⟨w, d, rest, c, _, _, rfl⟩
  · rfl
  · exact absurd hhost (hreset rest)
  · exact exec_keeps_fault_of_ne_zero i { s with host := rest } t hset hexec
  · exact latch_of_ne_zero s.fault c hset

/-- A step on a reset is the hardware reset (R290). -/
theorem step_of_reset (s : State) (rest : List HostAction) (hhost : s.host = .reset :: rest) :
    step s = .next (hardwareReset { s with host := rest }) := by
  simp [step, fetch, hhost]

/-- Absorb does not read FAULT. -/
theorem absorb_with_fault (bytes : List Byte) (s : State) (f : BitVec 4) :
    absorb bytes { s with fault := f } = { absorb bytes s with fault := f } := by
  simp only [absorb]
  split_ifs <;> rfl

/-- No performed command reads FAULT. -/
theorem performed_with_fault (i : Instr) (s : State) (f : BitVec 4) :
    performed i { s with fault := f } = { performed i s with fault := f } := by
  cases i with
  | init alg => rfl
  | update count data => exact absorb_with_fault _ (counterAdd count.toNat s) f
  | final => rfl
  | rdstat => rfl
  | rddig => rfl

/-- Responses and FAULT are no part of the computation. -/
theorem sameComputation_respond (s : State) (f : BitVec 4) (data data' : RespData) :
    SameComputation (respond data s) (respond data' { s with fault := f }) :=
  ⟨rfl, rfl, rfl, rfl, rfl, rfl, fun _ _ => rfl⟩

theorem sameComputation_raiseFault (s : State) (f : BitVec 4) (c : FaultCode) :
    SameComputation (raiseFault c s) (raiseFault c { s with fault := f }) :=
  ⟨rfl, rfl, rfl, rfl, rfl, rfl, fun _ _ => rfl⟩

/-- Settles O34: the latch keeps a code that is set and a performed command keeps FAULT, a reset clears it, and neither
the state check nor what a command performs reads it. -/
theorem faultIsStickyUntilReset : Obligations.FaultIsStickyUntilReset := by
  refine ⟨step_keeps_fault_of_ne_zero, fun s t rest hhost hstep => ?reset, fun i s f => ?command⟩
  case reset =>
    obtain rfl := Host.Outcome.next.inj ((step_of_reset s rest hhost).symm.trans hstep)
    exact hardwareReset_fault _
  case command =>
    rcases hcheck : stateFault i.op s.fin with _ | c
    · have hother := exec_of_stateFault_eq_none i { s with fault := f } hcheck
      rw [performed_with_fault] at hother
      refine ⟨_, _, ⟨true, performedData i.op s⟩, ⟨true, performedData i.op { s with fault := f }⟩,
        exec_of_stateFault_eq_none i s hcheck, hother, sameComputation_respond _ f _ _, respond_buf _ _, ?_, ?_, rfl⟩
      all_goals rw [respond_responses, performed_responses]
    · exact ⟨_, _, ⟨false, .empty⟩, ⟨false, .empty⟩, exec_of_stateFault i s c hcheck,
        exec_of_stateFault i { s with fault := f } c hcheck, sameComputation_raiseFault s f c, rfl, rfl, rfl, rfl⟩

end Sys2Proof.Machine
end

section

/-! # The hardware reset as a step (70_reset_and_hazards.md) -/

namespace Sys2Proof.Machine

@[simp] theorem hardwareReset_alg (s : State) : (hardwareReset s).alg = .md5 := hashAlg_iv .md5

/-- Settles O9: the step on a reset is the hardware reset of the state without that action, and each register of its
result is given by the lemma of that register. -/
theorem hardwareResetSetsEveryRegister : Obligations.HardwareResetSetsEveryRegister :=
  fun s rest hhost => ⟨hardwareReset { s with host := rest }, step_of_reset s rest hhost, hardwareReset_alg _,
    hardwareReset_h _, hardwareReset_bufUsed _, hardwareReset_lo _, hardwareReset_hi _, hardwareReset_fin _,
    hardwareReset_fault _, hardwareReset_host _, hardwareReset_responses _⟩

end Sys2Proof.Machine
end

section
/-! Encoding and decoding as inverses of each other (R80 to R88), and which lanes a word reads (R85). -/

namespace Sys2Proof

/-! ## Fields of an encoded command -/

/-- An encoded command is a word of its operation's row (R87). -/
theorem matchesRow_encode (i : Instr) : matchesRow (encode i) i.op = true := by
  cases i with
  | init alg => exact Laws.EncodeInRow.init alg
  | update count data => exact Laws.EncodeInRow.update count data
  | final => exact Laws.EncodeInRow.final
  | rdstat => exact Laws.EncodeInRow.rdstat
  | rddig => exact Laws.EncodeInRow.rddig

/-- The COUNT field of an encoded UPDATE is its count (R83). -/
theorem countField_encode_update (count : BitVec 7) (data : Lanes) :
    countField (encode (.update count data)) = count := by
  have h : ∀ c : BitVec 7, countField (0x00000002#32 ||| (c.setWidth 32 <<< 8)) = c := by decide
  exact h count

/-- The operands the decoder takes from an encoded command are the command's own (R80, R85). -/
theorem dispatchOp_encode (i : Instr) : dispatchOp i.op (encode i) (encodeData i) = i := by
  cases i with
  | init alg => cases alg <;> rfl
  | update count data => exact congrArg (Instr.update · data) (countField_encode_update count data)
  | final | rdstat | rddig => rfl

/-- COUNT <= 64 is all that well-formedness asks of a command (R83). -/
theorem performsAs_encode_iff (i : Instr) : PerformsAs (encode i) i.op ↔ i.wellFormed = true := by
  rw [PerformsAs, and_iff_right (matchesRow_encode i)]
  cases i with
  | update count data => simp [Instr.op, Instr.wellFormed, countField_encode_update]
  | init | final | rdstat | rddig => simp [Instr.op, Instr.wellFormed]

/-- Settles O1: the word of a well-formed command performs as the command's operation, and its fields are the
operands. -/
theorem decodeOfEncodeIsIdentity : Obligations.DecodeOfEncodeIsIdentity := by
  intro i hi
  rw [decode_eq_ok_iff, dispatchOp_encode]
  exact ⟨(performsAs_encode_iff i).mpr hi, rfl⟩

/-! ## The word of a decoded command -/

/-- A field of a word, put back at its place, is the word under the field's mask. -/
theorem setWidth_extractLsb'_shiftLeft (w : Word) (lo n : Nat) :
    (w.extractLsb' lo n).setWidth 32 <<< lo = w &&& ((BitVec.allOnes n).setWidth 32 <<< lo) := by
  ext k hk
  by_cases hlo : lo ≤ k
  · simp [hk, hlo, Nat.not_lt.mpr hlo, Bool.and_comm]
  · simp [Nat.lt_of_not_le hlo]

theorem algBit_ofBit (b : BitVec 1) : (Alg.ofBit b).bit = b := by
  revert b
  decide

/-- A word that matches a row is the row's pattern and the bits its mask leaves free. -/
theorem eq_pattern_or_of_matchesRow (w : Word) (op : Op) (h : matchesRow w op = true) :
    w = (commandRow op).pattern ||| (w &&& ~~~(commandRow op).mask) := by
  rw [matchesRow, beq_iff_eq] at h
  rw [← h, ← BitVec.and_or_distrib_left, BitVec.or_not_self, BitVec.and_allOnes]

/-- The bits a row's mask leaves free are the operation's operands, so the command's word is the word decoded (R87). -/
theorem encode_dispatchOp (w : Word) (data : Lanes) (op : Op) (h : matchesRow w op = true) :
    encode (dispatchOp op w data) = w := by
  have hw := (eq_pattern_or_of_matchesRow w op h).symm
  cases op with
  | init =>
    have hfield := setWidth_extractLsb'_shiftLeft w 4 1
    rwa [dispatchOp, encode, algBit_ofBit, algField, hfield]
  | update =>
    have hfield := setWidth_extractLsb'_shiftLeft w 8 7
    rwa [dispatchOp, encode, countField, hfield]
  | final | rdstat | rddig => simpa [commandRow, dispatchOp, encode] using hw

/-- Settles O2: a word that decodes performs as the command's operation, and then it is the command's word. -/
theorem encodeOfDecodeIsWord : Obligations.EncodeOfDecodeIsWord := by
  intro w d i hd
  obtain ⟨hperf, hi⟩ := (decode_eq_ok_iff w d i).mp hd
  have hword : encode i = w := by
    rw [hi]
    exact encode_dispatchOp w d i.op hperf.1
  refine ⟨hword, (performsAs_encode_iff i).mp (by rwa [hword]), fun hop => ?_⟩
  rw [hi, hop]
  rfl

/-- The decoder answers well-formed commands only (R83, R88). -/
theorem wellFormed_of_decode {w : Word} {data : Lanes} {i : Instr} (hd : decode w data = .ok i) : i.wellFormed = true :=
  (encodeOfDecodeIsWord w data i hd).2.1

/-- Settles O5: each word is decoded by computation. -/
theorem tabledWordsDecodeAsWritten : Obligations.TabledWordsDecodeAsWritten := by
  unfold Obligations.TabledWordsDecodeAsWritten
  decide

end Sys2Proof

namespace Sys2Proof.Machine

/-! ## Lanes (R85) -/

/-- No check of the decoder reads a lane (R85, R88). -/
theorem decode_eq_fault_iff_of_lanes (w : Word) (d d' : Lanes) (c : FaultCode) :
    decode w d = .fault c ↔ decode w d' = .fault c := by
  unfold decode
  rcases opOf (opField w) with _ | op
  · rfl
  · dsimp only
    split_ifs <;> simp

/-- Lanes reach what a word decodes to as an UPDATE's operand only; they do not decide whether it decodes (R85). -/
theorem decode_change_lanes (w : Word) (d d' : Lanes) :
    (∃ op, PerformsAs w op ∧ decode w d = .ok (dispatchOp op w d) ∧ decode w d' = .ok (dispatchOp op w d')) ∨
    (∃ c, decode w d = .fault c ∧ decode w d' = .fault c) := by
  rcases decode_cases w d with ⟨op, hp, hd⟩ | ⟨hnone, c, hd, _⟩
  · exact .inl ⟨op, hp, hd, (decode_eq_dispatchOp_iff w d' op).mpr hp⟩
  · exact .inr ⟨c, hd, (decode_eq_fault_iff_of_lanes w d d' c).mp hd⟩

/-- An UPDATE reads the lanes below COUNT only (R57, R85). -/
theorem messageBytes_congr (count : BitVec 7) (d d' : Lanes)
    (h : ∀ j, (hj : j < 64) → j < count.toNat → d[j] = d'[j]) : messageBytes count d = messageBytes count d' := by
  refine List.ext_getElem (by simp) fun j hj _ => ?_
  rw [messageBytes_length, Nat.lt_min] at hj
  simpa [messageBytes] using h j hj.2 hj.1

/-- A word performs the same in a state whichever lanes it does not read are presented with it (R85). -/
theorem exec_dispatchOp_congr (op : Op) (w : Word) (d d' : Lanes) (s : State)
    (h : op = .update → messageBytes (countField w) d = messageBytes (countField w) d') :
    exec (dispatchOp op w d) s = exec (dispatchOp op w d') s := by
  cases op with
  | update => simp only [dispatchOp, exec, execUpdate, h rfl]
  | init | final | rdstat | rddig => rfl

/-- Settles O6: lanes do not decide whether a word decodes, and exec of an UPDATE reads them through its message
bytes. -/
theorem unusedLanesAreIgnored : Obligations.UnusedLanesAreIgnored := by
  intro s w d d' rest
  refine ⟨fun hlanes => ?_, decode_eq_fault_iff_of_lanes w d d'⟩
  rcases decode_change_lanes w d d' with ⟨op, hp, hd, hd'⟩ | ⟨c, hd, hd'⟩
  · rw [step_of_decode_ok _ w d rest _ rfl hd, step_of_decode_ok _ w d' rest _ rfl hd']
    refine exec_dispatchOp_congr op w d d' _ fun hop => messageBytes_congr _ d d' (hlanes ?_)
    obtain ⟨hopOf, _⟩ := (matchesRow_iff w op).mp hp.1
    rw [hop] at hopOf
    exact (opOf_eq_some_iff _ .update).mp hopOf
  · rw [step_of_decode_fault _ w d rest c rfl hd, step_of_decode_fault _ w d' rest c rfl hd']

/-! ## The step (R8, R31, R297) -/

/-- A step on a well-formed command the host issues is exec of that command (R87, R298). -/
theorem step_of_commandAction (s : State) (i : Instr) (rest : List HostAction) (hi : i.wellFormed = true)
    (hhost : s.host = commandAction i :: rest) : step s = exec i { s with host := rest } :=
  step_of_decode_ok s _ _ rest i hhost (decodeOfEncodeIsIdentity i hi)

/-- Settles O7: it is what `step` does with a decoded command. -/
theorem stepRunsDecodedCommand : Obligations.StepRunsDecodedCommand := step_of_decode_ok

/-- With no action waiting a step leaves the state as it is. -/
theorem step_of_idle (s : State) (hhost : s.host = []) : step s = .next s := by
  simp [step, fetch, hhost]

/-- Settles O8: such a step is the idle one. -/
theorem waitingBlockHoldsState : Obligations.WaitingBlockHoldsState := step_of_idle

/-- Every step answers a next state: a wait, a reset, a command or the fault action (R297). -/
theorem step_total (s : State) : ∃ t, step s = .next t := by
  rcases fetch_cases s with ⟨hhost, _⟩ | ⟨rest, hhost, _⟩ | ⟨w, d, rest, i, hhost, hd, _⟩ |
      ⟨w, d, rest, c, hhost, hd, _⟩
  · exact ⟨s, step_of_idle s hhost⟩
  · exact ⟨_, step_of_reset s rest hhost⟩
  · rw [step_of_decode_ok s w d rest i hhost hd]
    exact exec_total i _
  · exact ⟨_, step_of_decode_fault s w d rest c hhost hd⟩

/-- Settles O11: each of the four kinds of step is total. -/
theorem everyStepAnswersNextState : Obligations.EveryStepAnswersNextState := step_total

end Sys2Proof.Machine
end

section
/-! UPDATE (R180, R182): Absorb in its three shapes, and UPDATE as a function of the bytes waiting in BUF followed by
the bytes it brings. -/

namespace Sys2Proof.Machine

/-! ## The bytes waiting in BUF -/

/-- The bytes waiting for their block: BUF[0 .. BUF_USED-1] (R24, R25). -/
def waitingBytes (s : State) : List Byte := s.buf.read 0 s.bufUsed.toNat

@[simp] theorem waitingBytes_length (s : State) : (waitingBytes s).length = s.bufUsed.toNat := read_length ..

theorem waitingBytes_length_lt (s : State) : (waitingBytes s).length < 64 := by
  rw [waitingBytes_length]
  exact s.bufUsed.isLt

@[simp] theorem counterAdd_waitingBytes (n : Nat) (s : State) : waitingBytes (counterAdd n s) = waitingBytes s := rfl

theorem toNat_ofNat_six {n : Nat} (hn : n < 64) : (BitVec.ofNat 6 n).toNat = n := by
  rw [BitVec.toNat_ofNat, Nat.mod_eq_of_lt hn]

/-! ## Absorb (R182) -/

/-- Fewer than 64 bytes make no block. -/
theorem absorbBlocks_of_lt (n : Nat) (h : HashWords) (bytes : List Byte) (hlt : bytes.length < 64) :
    absorbBlocks n h bytes = (h, bytes) := by
  cases n with
  | zero => rfl
  | succ n => rw [absorbBlocks, if_neg (by omega)]

/-- Steps 3 and 4 of Absorb on fewer than 64 bytes copy them. -/
theorem absorbFromEmpty_of_lt (bytes : List Byte) (s : State) (hlt : bytes.length < 64) :
    absorbFromEmpty bytes s =
      { s with
        buf := s.buf.write 0 bytes
        bufUsed := BitVec.ofNat 6 bytes.length } := by
  simp only [absorbFromEmpty, absorbBlocks_of_lt _ _ bytes hlt]

/-- Steps 3 and 4 of Absorb on 64 bytes compress them and copy nothing. -/
theorem absorbFromEmpty_of_eq (bytes : List Byte) (s : State) (hlen : bytes.length = 64) :
    absorbFromEmpty bytes s =
      { s with
        h := compress s.h bytes
        bufUsed := 0 } := by
  have hblocks : absorbBlocks (bytes.length / 64) s.h bytes = (compress s.h bytes, []) := by
    rw [hlen, absorbBlocks, if_pos hlen.ge, absorbBlocks_of_lt _ _ _ (by simp [hlen]), List.take_of_length_le hlen.le,
      List.drop_of_length_le hlen.le]
  simp only [absorbFromEmpty, hblocks, write_nil]
  rfl

/-- What Absorb does with at most 64 bytes: they fit behind the waiting ones; or they fill the partly full buffer, which
is compressed, and the leftover is copied; or they are a block, and the buffer is empty. -/
theorem absorb_cases (bytes : List Byte) (s : State) (hlen : bytes.length ≤ 64) :
    (s.bufUsed.toNat + bytes.length < 64 ∧
      absorb bytes s =
        { s with
          buf := s.buf.write s.bufUsed.toNat bytes
          bufUsed := BitVec.ofNat 6 (s.bufUsed.toNat + bytes.length) }) ∨
    (0 < s.bufUsed.toNat ∧ 64 ≤ s.bufUsed.toNat + bytes.length ∧
      absorb bytes s =
        { s with
          h := compress s.h ((s.buf.write s.bufUsed.toNat (bytes.take (64 - s.bufUsed.toNat))).read 0 64)
          buf := (s.buf.write s.bufUsed.toNat (bytes.take (64 - s.bufUsed.toNat))).write 0
            (bytes.drop (64 - s.bufUsed.toNat))
          bufUsed := BitVec.ofNat 6 (bytes.length - (64 - s.bufUsed.toNat)) }) ∨
    (s.bufUsed.toNat = 0 ∧ bytes.length = 64 ∧
      absorb bytes s =
        { s with
          h := compress s.h bytes
          bufUsed := 0 }) := by
  rcases Nat.eq_zero_or_pos s.bufUsed.toNat with h0 | h0
  · rw [absorb_empty bytes s h0]
    rcases hlen.eq_or_lt with heq | hlt
    · exact .inr (.inr ⟨h0, heq, absorbFromEmpty_of_eq bytes s heq⟩)
    · refine .inl ⟨by omega, ?_⟩
      rw [absorbFromEmpty_of_lt bytes s hlt, h0, Nat.zero_add]
  · rcases Nat.lt_or_ge (s.bufUsed.toNat + bytes.length) 64 with hfits | hfills
    · exact .inl ⟨hfits, absorb_partial bytes s h0 (by omega)⟩
    · refine .inr (.inl ⟨h0, hfills, ?_⟩)
      rw [absorb_fill bytes s h0 (by omega), absorbFromEmpty_of_lt _ _ (by rw [List.length_drop]; omega),
        List.length_drop]

/-! ## Absorb on the waiting bytes -/

/-- A buffer filled to 64 bytes holds the first 64 of the waiting bytes and those that come. -/
theorem read_filled (bytes : List Byte) (s : State) (hfills : 64 ≤ s.bufUsed.toNat + bytes.length) :
    (s.buf.write s.bufUsed.toNat (bytes.take (64 - s.bufUsed.toNat))).read 0 64 =
      (waitingBytes s ++ bytes).take 64 := by
  have hwait := waitingBytes_length_lt s
  rw [waitingBytes_length] at hwait
  have htake : s.bufUsed.toNat + (bytes.take (64 - s.bufUsed.toNat)).length = 64 := by
    rw [List.length_take]
    omega
  have hread := read_write_behind s.buf s.bufUsed.toNat (bytes.take (64 - s.bufUsed.toNat)) htake.le
  rw [htake] at hread
  rw [hread, List.take_append, waitingBytes_length, ← waitingBytes,
    List.take_of_length_le (waitingBytes_length_lt s).le]

/-- Absorb compresses the first 64 of the waiting bytes and those that come, once there are so many. -/
theorem absorb_h (bytes : List Byte) (s : State) (hlen : bytes.length ≤ 64) :
    (absorb bytes s).h =
      if (waitingBytes s ++ bytes).length < 64 then s.h else compress s.h ((waitingBytes s ++ bytes).take 64) := by
  rw [List.length_append, waitingBytes_length]
  rcases absorb_cases bytes s hlen with ⟨hfits, ha⟩ | ⟨_, hfills, ha⟩ | ⟨h0, h64, ha⟩
  · rw [ha, if_pos hfits]
  · rw [ha, if_neg (by omega), ← read_filled bytes s hfills]
  · have hw : waitingBytes s = [] := List.eq_nil_of_length_eq_zero (by rw [waitingBytes_length, h0])
    rw [ha, if_neg (by omega), hw, List.nil_append, List.take_of_length_le h64.le]

/-- Absorb keeps the waiting bytes and those that come, but for a block it has compressed. -/
theorem absorb_waitingBytes (bytes : List Byte) (s : State) (hlen : bytes.length ≤ 64) :
    waitingBytes (absorb bytes s) =
      if (waitingBytes s ++ bytes).length < 64 then waitingBytes s ++ bytes
      else (waitingBytes s ++ bytes).drop 64 := by
  have hused := s.bufUsed.isLt
  rw [List.length_append, waitingBytes_length]
  rcases absorb_cases bytes s hlen with ⟨hfits, ha⟩ | ⟨_, hfills, ha⟩ | ⟨h0, h64, ha⟩
  · rw [ha, if_pos hfits, waitingBytes, toNat_ofNat_six hfits]
    exact read_write_behind _ _ _ hfits.le
  · have hleft : (bytes.drop (64 - s.bufUsed.toNat)).length = bytes.length - (64 - s.bufUsed.toNat) :=
      List.length_drop ..
    rw [ha, if_neg (by omega), waitingBytes, toNat_ofNat_six (by omega), ← hleft, read_write_same _ _ _ (by omega),
      List.drop_append, waitingBytes_length, List.drop_of_length_le (waitingBytes_length_lt s).le, List.nil_append]
  · rw [ha, if_neg (by omega), List.drop_of_length_le (by simp; omega)]
    rfl

/-- BUF_USED counts the bytes absorbed mod 64 (R25). -/
theorem absorb_bufUsed_toNat (bytes : List Byte) (s : State) (hlen : bytes.length ≤ 64) :
    (absorb bytes s).bufUsed.toNat = (s.bufUsed.toNat + bytes.length) % 64 := by
  have hused := s.bufUsed.isLt
  rw [← waitingBytes_length, absorb_waitingBytes bytes s hlen, apply_ite List.length, List.length_drop,
    List.length_append, waitingBytes_length]
  split <;> omega

/-- Absorb leaves every byte of BUF outside those it stores as it was. -/
theorem absorb_readByte_outside (bytes : List Byte) (s : State) (hlen : bytes.length ≤ 64) (a : Nat)
    (ha : if s.bufUsed.toNat + bytes.length < 64 then a < s.bufUsed.toNat ∨ s.bufUsed.toNat + bytes.length ≤ a
      else s.bufUsed.toNat + bytes.length - 64 ≤ a ∧ (a < s.bufUsed.toNat ∨ 64 ≤ a ∨ s.bufUsed.toNat = 0)) :
    (absorb bytes s).buf.readByte a = s.buf.readByte a := by
  rcases absorb_cases bytes s hlen with ⟨hfits, habs⟩ | ⟨h0, hfills, habs⟩ | ⟨_, _, habs⟩
  · rw [if_pos hfits] at ha
    rw [habs]
    exact readByte_write_outside _ _ _ a ha
  · rw [if_neg (by omega)] at ha
    rw [habs]
    dsimp only
    rw [readByte_write_outside _ 0 _ a (by rw [List.length_drop]; omega),
      readByte_write_outside _ _ _ a (by rw [List.length_take]; omega)]
  · rw [habs]

/-- Absorb keeps BUF's canonical form. -/
theorem absorb_wf (bytes : List Byte) (s : State) (hlen : bytes.length ≤ 64) (hwf : s.buf.wf = true) :
    (absorb bytes s).buf.wf = true := by
  rcases absorb_cases bytes s hlen with ⟨_, ha⟩ | ⟨_, _, ha⟩ | ⟨_, _, ha⟩ <;> rw [ha]
  · exact wf_write _ _ _ hwf
  · exact wf_write _ _ _ (wf_write _ _ _ hwf)
  · exact hwf

/-! ## UPDATE while FIN = 0 -/

theorem messageBytes_length_of_le (count : BitVec 7) (d : Lanes) (hcount : count.toNat ≤ 64) :
    (messageBytes count d).length = count.toNat := by
  rw [messageBytes_length, Nat.min_eq_left hcount]

/-- Settles O18: the three shapes of Absorb are the obligation's four cases, the first and the last of which are both a
copy behind the waiting bytes. -/
theorem updateFollowsAbsorbCases : Obligations.UpdateFollowsAbsorbCases := by
  intro count d s hcount hfin
  have hlen := messageBytes_length_of_le count d hcount
  refine ⟨_, exec_update_of_not_fin count d s hfin, fun a ha => ?beyond, ?_⟩
  case beyond =>
    have hused := s.bufUsed.isLt
    refine absorb_readByte_outside _ (counterAdd count.toNat s) (by omega) a ?_
    rw [counterAdd_bufUsed, hlen]
    split <;> omega
  dsimp only
  rw [← messageBytes]
  have hcases := absorb_cases (messageBytes count d) (counterAdd count.toNat s) (by omega)
  rw [hlen, counterAdd_bufUsed] at hcases
  rcases hcases with ⟨hfits, ha⟩ | ⟨h0, hfills, ha⟩ | ⟨h0, h64, ha⟩ <;> rw [ha]
  · rcases Nat.eq_zero_or_pos s.bufUsed.toNat with hempty | hpartial
    · rw [if_neg (by omega), if_neg (by omega), if_neg (by omega), hempty]
      exact ⟨rfl, rfl, by rw [Nat.zero_add]; exact toNat_ofNat_six (by omega)⟩
    · rw [if_pos ⟨hpartial, by omega⟩]
      exact ⟨rfl, rfl, toNat_ofNat_six hfits⟩
  · have hused := s.bufUsed.isLt
    rw [if_neg (by omega), if_pos h0]
    exact ⟨rfl, rfl, toNat_ofNat_six (by omega)⟩
  · rw [if_neg (by omega), if_neg (by omega), if_pos h64]
    exact ⟨rfl, rfl, rfl⟩

/-- Settles O19: it is what Absorb makes of H and of the waiting bytes, and BUF_USED is their number. -/
theorem updateExtendsWaitingBytes : Obligations.UpdateExtendsWaitingBytes := by
  intro count d s hcount hfin
  have hlen := messageBytes_length_of_le count d hcount
  have hh := absorb_h (messageBytes count d) (counterAdd count.toNat s) (by omega)
  have hkept := absorb_waitingBytes (messageBytes count d) (counterAdd count.toNat s) (by omega)
  rw [counterAdd_waitingBytes] at hh hkept
  refine ⟨_, exec_update_of_not_fin count d s hfin, hh, ?_⟩
  have hused := congrArg List.length hkept
  rw [waitingBytes_length] at hused
  refine ⟨hused, ?_⟩
  rw [waitingBytes, hused] at hkept
  exact hkept

/-- Settles O20: Absorb and CounterAdd write no other register, and Absorb stores the bytes named only. -/
theorem updateFrame : Obligations.UpdateFrame := by
  intro count d s t hcount hfin hexec
  obtain rfl := Host.Outcome.next.inj ((exec_update_of_not_fin count d s hfin).symm.trans hexec)
  have hlen := messageBytes_length_of_le count d hcount
  refine ⟨by simp, by simp, by simp, by simp, by simp, fun a ha => ?_⟩
  exact absorb_readByte_outside _ (counterAdd count.toNat s) (by omega) a (by rwa [hlen])

theorem counterAdd_zero (s : State) : counterAdd 0 s = s := by
  have hlo : ¬ 2 ^ 32 ≤ s.lo.toNat := Nat.not_le.mpr s.lo.isLt
  simp only [counterAdd, Nat.zero_mul, Nat.add_zero, hlo, if_false, BitVec.ofNat_toNat, BitVec.setWidth_eq]

theorem absorb_nil (s : State) : absorb [] s = s := by
  rcases absorb_cases [] s (by simp) with ⟨_, ha⟩ | ⟨_, hfills, _⟩ | ⟨_, h64, _⟩
  · simp [ha]
  · exact absurd hfills (Nat.not_le.mpr s.bufUsed.isLt)
  · cases h64

/-- Settles O22: no bytes are counted and none absorbed. -/
theorem emptyUpdateChangesNothing : Obligations.EmptyUpdateChangesNothing := by
  intro d s hfin
  have hnone : messageBytes 0 d = [] := List.take_zero
  rw [exec_update_of_not_fin 0 d s hfin, hnone]
  exact congrArg (fun u => Host.Outcome.next (respond .empty u)) ((absorb_nil _).trans (counterAdd_zero s))

end Sys2Proof.Machine
end

section
/-! FINAL (R210, R211): the one or two blocks Pad compresses as functions of the waiting bytes, H and the counter. -/

namespace Sys2Proof.Machine

/-! ## The blocks of the padding (R211) -/

/-- The last block Pad compresses: it holds the waiting bytes and 0x80 too when they leave room for the length. -/
def lastBlock (s : State) : List Byte :=
  if s.bufUsed.toNat ≤ 55 then
    waitingBytes s ++ [0x80] ++ zeroBytes (55 - s.bufUsed.toNat) ++ lengthField s.alg s.lengthBits
  else zeroBytes 56 ++ lengthField s.alg s.lengthBits

/-- H before the last block: when the waiting bytes leave no room for the length, a block of them is compressed
first. -/
def wordsBeforeLast (s : State) : HashWords :=
  if s.bufUsed.toNat ≤ 55 then s.h
  else compress s.h (waitingBytes s ++ [0x80] ++ zeroBytes (63 - s.bufUsed.toNat))

/-! ## Pad in its two shapes -/

/-- Step 2 of Pad when fewer than 8 bytes remain: zero fill, a compression and a fresh buffer of zero bytes. -/
theorem padOverflow_of_lt (p : PadWork) (h : 64 - p.used < 8) :
    padOverflow p =
      { h := compress p.h ((p.buf.write p.used (zeroBytes (64 - p.used))).read 0 64)
        buf := (p.buf.write p.used (zeroBytes (64 - p.used))).write 0 (zeroBytes 64)
        used := 0 } := if_pos h

/-- Step 2 of Pad does nothing when at least 8 bytes remain. -/
theorem padOverflow_of_ge (p : PadWork) (h : ¬ 64 - p.used < 8) : padOverflow p = p := if_neg h

/-- With room for the length Pad writes 0x80, zero bytes and the length behind the waiting bytes. -/
theorem pad_buf_of_le (s : State) (hroom : s.bufUsed.toNat ≤ 55) :
    (pad s).buf =
      s.buf.write s.bufUsed.toNat
        ([0x80] ++ zeroBytes (55 - s.bufUsed.toNat) ++ lengthField s.alg s.lengthBits) := by
  have hzeros : 56 - (s.bufUsed.toNat + 1) = 55 - s.bufUsed.toNat := by omega
  have hend : s.bufUsed.toNat + ([0x80] ++ zeroBytes (55 - s.bufUsed.toNat)).length = 56 := by
    rw [List.length_append, zeroBytes_length, List.length_singleton]
    omega
  rw [pad, padOverflow_of_ge (padMark s) (by simp only [padMark]; omega), write_append, hend, write_append,
    List.length_singleton, ← hzeros]
  rfl

/-- The buffer of an overflow block: 0x80 and zero bytes behind the waiting bytes. -/
def overflowBuf (s : State) : Memory :=
  s.buf.write s.bufUsed.toNat ([0x80] ++ zeroBytes (63 - s.bufUsed.toNat))

/-- Without room for the length Pad compresses an overflow block and starts a fresh buffer of zero bytes. -/
theorem padOverflow_padMark_of_gt (s : State) (hfull : 55 < s.bufUsed.toNat) :
    padOverflow (padMark s) =
      { h := compress s.h ((overflowBuf s).read 0 64)
        buf := (overflowBuf s).write 0 (zeroBytes 64)
        used := 0 } := by
  have hzeros : 64 - (s.bufUsed.toNat + 1) = 63 - s.bufUsed.toNat := by omega
  have hbuf : (padMark s).buf.write (padMark s).used (zeroBytes (64 - (padMark s).used)) = overflowBuf s := by
    rw [overflowBuf, write_append, List.length_singleton, ← hzeros]
    rfl
  rw [padOverflow_of_lt (padMark s) (by simp only [padMark]; omega), hbuf]
  rfl

/-- Without room for the length Pad's last block is written from offset 0 on. -/
theorem pad_buf_of_gt (s : State) (hfull : 55 < s.bufUsed.toNat) :
    (pad s).buf =
      ((overflowBuf s).write 0 (zeroBytes 64)).write 0 (zeroBytes 56 ++ lengthField s.alg s.lengthBits) := by
  rw [pad, padOverflow_padMark_of_gt s hfull, write_append, zeroBytes_length]
  rfl

/-- The overflow block is the waiting bytes, 0x80 and zero bytes. -/
theorem overflowBuf_read (s : State) :
    (overflowBuf s).read 0 64 = waitingBytes s ++ [0x80] ++ zeroBytes (63 - s.bufUsed.toNat) := by
  have hused := s.bufUsed.isLt
  have hend : s.bufUsed.toNat + ([0x80] ++ zeroBytes (63 - s.bufUsed.toNat)).length = 64 := by
    rw [List.length_append, zeroBytes_length, List.length_singleton]
    omega
  have hread := read_write_behind s.buf s.bufUsed.toNat ([0x80] ++ zeroBytes (63 - s.bufUsed.toNat)) hend.le
  rw [hend] at hread
  rw [overflowBuf, hread, List.append_assoc, waitingBytes]

/-! ## What Pad compresses -/

/-- Pad leaves in BUF the block it compressed last. -/
theorem pad_buf_read (s : State) : (pad s).buf.read 0 64 = lastBlock s := by
  unfold lastBlock
  split
  next hroom =>
    have hend : s.bufUsed.toNat +
        ([0x80] ++ zeroBytes (55 - s.bufUsed.toNat) ++ lengthField s.alg s.lengthBits).length = 64 := by
      simp only [List.length_append, zeroBytes_length, List.length_singleton, lengthField_length]
      omega
    have hread := read_write_behind s.buf s.bufUsed.toNat _ hend.le
    rw [hend] at hread
    rw [pad_buf_of_le s hroom, hread]
    simp only [waitingBytes, List.append_assoc]
  next hfull =>
    have hlen : (zeroBytes 56 ++ lengthField s.alg s.lengthBits).length = 64 := by simp
    rw [pad_buf_of_gt s (by omega), ← hlen]
    exact read_write_same _ 0 _ (by rw [hlen])

/-- The words Pad's last compression starts from. -/
theorem padOverflow_h (s : State) : (padOverflow (padMark s)).h = wordsBeforeLast s := by
  unfold wordsBeforeLast
  split
  next hroom =>
    rw [padOverflow_of_ge (padMark s) (by simp only [padMark]; omega)]
    rfl
  next hfull => rw [padOverflow_padMark_of_gt s (by omega), overflowBuf_read]

/-- H after FINAL is a function of H, the waiting bytes and the counter (R211). -/
theorem finalize_h_eq (s : State) : (finalize s).h = compress (wordsBeforeLast s) (lastBlock s) := by
  rw [finalize_h, pad_h, pad_buf_read, padOverflow_h]

/-- Pad stores within offsets 0..63 (R211). -/
theorem pad_readByte_beyond (s : State) (a : Nat) (ha : 64 ≤ a) : (pad s).buf.readByte a = s.buf.readByte a := by
  have hused := s.bufUsed.isLt
  rcases Nat.lt_or_ge 55 s.bufUsed.toNat with hfull | hroom
  · rw [pad_buf_of_gt s hfull, overflowBuf]
    rw [readByte_write_outside _ _ _ a (by simp; omega), readByte_write_outside _ _ _ a (by simp; omega),
      readByte_write_outside _ _ _ a (by simp; omega)]
  · rw [pad_buf_of_le s hroom, readByte_write_outside _ _ _ a (by simp; omega)]

/-- Pad keeps BUF's canonical form. -/
theorem pad_wf (s : State) (hwf : s.buf.wf = true) : (pad s).buf.wf = true := by
  rcases Nat.lt_or_ge 55 s.bufUsed.toNat with hfull | hroom
  · rw [pad_buf_of_gt s hfull]
    exact wf_write _ _ _ (wf_write _ _ _ (wf_write _ _ _ hwf))
  · rw [pad_buf_of_le s hroom]
    exact wf_write _ _ _ hwf

/-! ## FINAL while FIN = 0 -/

/-- Settles O26: the last block and the words before it are those of Pad. -/
theorem finalCompressesPaddedBytes : Obligations.FinalCompressesPaddedBytes := by
  intro s hfin
  refine ⟨_, exec_final_of_not_fin s hfin, ?_⟩
  dsimp only
  rw [← waitingBytes, waitingBytes_length]
  exact ⟨finalize_h_eq s, pad_buf_read s, rfl, rfl, finalize_alg s, rfl, rfl, rfl, rfl, rfl, pad_readByte_beyond s⟩

/-- States that hold the same computation have the same bytes waiting. -/
theorem SameComputation.waitingBytes_eq {s t : State} (h : SameComputation s t) : waitingBytes t = waitingBytes s := by
  rw [waitingBytes, waitingBytes, h.bufUsed]
  exact read_congr _ _ _ _ fun a _ ha => h.buf a (by omega)

/-- What FINAL compresses depends on BUF through the waiting bytes alone. -/
theorem SameComputation.finalize_h_eq {s t : State} (h : SameComputation s t) : (finalize t).h = (finalize s).h := by
  rw [Machine.finalize_h_eq, Machine.finalize_h_eq, lastBlock, lastBlock, wordsBeforeLast, wordsBeforeLast,
    h.waitingBytes_eq, h.bufUsed, h.h, State.alg, h.h, State.lengthBits, h.hi, h.lo, State.alg, State.lengthBits]

theorem lengthField_eq_ite (alg : Alg) (len : BitVec 64) :
    lengthField alg len = if alg = .md5 then leBytes 8 len else beBytes 8 len := by
  cases alg <;> rfl

/-- Settles O25: Pad's steps are the model's own, taken with and without the overflow block. -/
theorem finalFollowsPadSteps : Obligations.FinalFollowsPadSteps := by
  intro s hfin
  refine ⟨_, exec_final_of_not_fin s hfin, fun m hm => ?stale, ?steps⟩
  case stale => exact ⟨_, exec_final_of_not_fin { s with buf := m } hfin,
      SameComputation.finalize_h_eq ⟨rfl, rfl, rfl, rfl, rfl, rfl, hm⟩⟩
  case steps =>
    dsimp only
    rw [← lengthField_eq_ite, ← State.lengthBits, respond_buf, respond_h, finalize_buf, finalize_h, pad_h]
    by_cases hover : 64 - (s.bufUsed.toNat + 1) < 8
    · simp only [if_pos hover, pad, padOverflow_of_lt (padMark s) hover]
      exact ⟨rfl, rfl⟩
    · simp only [if_neg hover, pad, padOverflow_of_ge (padMark s) hover]
      exact ⟨rfl, rfl⟩

/-! ## The empty message -/

/-- A computation starts from what INIT leaves (R240). -/
theorem startOf_init (alg : Alg) (s : State) : (respond .empty (startComputation alg s)).StartOf alg :=
  ⟨rfl, rfl, rfl, rfl, rfl⟩

/-- FINAL at the start of a computation compresses the padding of the empty message. -/
theorem finalize_h_of_startOf (alg : Alg) (s : State) (hs : s.StartOf alg) :
    (finalize s).h = compress (iv alg) ([0x80] ++ zeroBytes 55 ++ lengthField alg 0) := by
  obtain ⟨hh, hused, hlo, hhi, _⟩ := hs
  rw [finalize_h_eq]
  simp [lastBlock, wordsBeforeLast, waitingBytes, State.lengthBits, State.alg, hh, hused, hlo, hhi]

/-- The digest of the empty message, computed. -/
theorem serialize_emptyBlock (alg : Alg) :
    serialize (compress (iv alg) ([0x80] ++ zeroBytes 55 ++ lengthField alg 0)) = emptyDigest alg := by
  cases alg <;> decide +kernel

theorem serialize_finalize_of_startOf (alg : Alg) (s : State) (hs : s.StartOf alg) :
    serialize (finalize s).h = emptyDigest alg := by
  rw [finalize_h_of_startOf alg s hs, serialize_emptyBlock]

/-- Settles O29: INIT leaves no byte waiting and a counter of 0, so FINAL compresses one fixed block. -/
theorem emptyMessageDigests : Obligations.EmptyMessageDigests := by
  intro alg s
  refine ⟨_, _, _, exec_init alg s, exec_final_of_not_fin _ rfl, exec_rddig_of_fin _ rfl, ?_⟩
  simp only [respond_h, serialize_finalize_of_startOf alg _ (startOf_init alg s), respond_responses,
    finalize_responses, startComputation_responses, List.append_assoc]
  rfl

end Sys2Proof.Machine
end

section
/-! The whole machine: the invariant of the block (R34), which command writes which register (R36), and clean runs
(R280). -/

namespace Sys2Proof.Machine

/-! ## The invariant (R34) -/

/-- Settles O38: every clause is about fixed values. -/
theorem resetMeetsBlockInvariant : Obligations.ResetMeetsBlockInvariant :=
  ⟨rfl, rfl, fun _ => rfl, nofun, by decide⟩

theorem latch_le_six (old : BitVec 4) (c : FaultCode) (hold : old.toNat ≤ 6) : (latch old c).toNat ≤ 6 := by
  unfold latch
  split
  · exact (faultValue_range c).2
  · exact hold

/-- The invariant is about the registers only: neither the host's actions nor the responses are part of it. -/
theorem State.Inv.with_host {s : State} (hs : s.Inv) (rest : List HostAction) : { s with host := rest }.Inv := by
  obtain ⟨hwf, hlo, hlength, hused, hfault⟩ := hs
  exact ⟨hwf, hlo, hlength, hused, hfault⟩

theorem State.Inv.respond {s : State} (hs : s.Inv) (data : RespData) : (respond data s).Inv := by
  obtain ⟨hwf, hlo, hlength, hused, hfault⟩ := hs
  exact ⟨hwf, hlo, hlength, hused, hfault⟩

theorem State.Inv.raiseFault {s : State} (hs : s.Inv) (c : FaultCode) : (raiseFault c s).Inv := by
  obtain ⟨hwf, hlo, hlength, hused, hfault⟩ := hs
  exact ⟨hwf, hlo, hlength, hused, latch_le_six s.fault c hfault⟩

theorem State.Inv.startComputation {s : State} (hs : s.Inv) (alg : Alg) : (startComputation alg s).Inv :=
  ⟨hs.bufWf, rfl, fun _ => by simp [State.bitLength], nofun, hs.faultRange⟩

theorem inv_hardwareReset (s : State) : (hardwareReset s).Inv :=
  ⟨rfl, rfl, fun _ => by simp [State.bitLength], nofun, Nat.zero_le 6⟩

@[simp] theorem absorb_bitLength (bytes : List Byte) (s : State) : (absorb bytes s).bitLength = s.bitLength := by
  simp [State.bitLength]

/-- CounterAdd and Absorb advance the counter and BUF_USED by the same number of bytes (R34 (ii)). -/
theorem State.Inv.update {s : State} (hs : s.Inv) (hfin : s.fin = false) (bytes : List Byte)
    (hlen : bytes.length ≤ 64) :
    (absorb bytes (counterAdd bytes.length s)).Inv := by
  obtain ⟨hwf, hlo, hlength, -, hfault⟩ := hs
  refine ⟨absorb_wf bytes _ hlen hwf, ?lo, fun _ => ?used, fun h => ?final, by simpa using hfault⟩
  case lo =>
    rw [absorb_lo, counterAdd_lo_toNat]
    omega
  case used =>
    rw [absorb_bufUsed_toNat bytes _ hlen, absorb_bitLength, counterAdd_bitLength _ s (by omega), counterAdd_bufUsed,
      hlength hfin]
    omega
  case final =>
    rw [absorb_fin, counterAdd_fin, hfin] at h
    cases h

theorem State.Inv.finalize {s : State} (hs : s.Inv) : (finalize s).Inv :=
  ⟨pad_wf s hs.bufWf, hs.loBytes, nofun, fun _ => rfl, hs.faultRange⟩

/-- A performed command keeps the invariant; UPDATE is performed with FIN = 0 and COUNT <= 64 only. -/
theorem State.Inv.performed {s : State} (hs : s.Inv) (i : Instr) (hi : i.wellFormed = true)
    (hcheck : stateFault i.op s.fin = none) : (performed i s).Inv := by
  cases i with
  | init alg => exact hs.startComputation alg
  | update count data =>
    have hlen := messageBytes_length_of_le count data (by simpa [Instr.wellFormed] using hi)
    have hkept := hs.update (by simpa [Instr.op, stateFault] using hcheck) (messageBytes count data) (by simp)
    rwa [hlen] at hkept
  | final => exact hs.finalize
  | rdstat | rddig => exact hs

/-- A well-formed command, refused or performed, keeps the invariant. -/
theorem exec_keeps_inv (i : Instr) (s t : State) (hs : s.Inv) (hi : i.wellFormed = true) (h : exec i s = .next t) :
    t.Inv := by
  rcases hcheck : stateFault i.op s.fin with _ | c
  · obtain rfl := Host.Outcome.next.inj ((exec_of_stateFault_eq_none i s hcheck).symm.trans h)
    exact (hs.performed i hi hcheck).respond _
  · obtain rfl := Host.Outcome.next.inj ((exec_of_stateFault i s c hcheck).symm.trans h)
    exact hs.raiseFault c

/-- Settles O37: a wait, a reset, a command and the fault action each keep the invariant. -/
theorem stepKeepsBlockInvariant : Obligations.StepKeepsBlockInvariant := by
  intro s t hs hstep
  rcases step_cases s t hstep with ⟨_, rfl⟩ | ⟨rest, _, rfl⟩ | ⟨w, d, rest, i, _, hd, hexec⟩ |
    ⟨w, d, rest, c, _, _, rfl⟩
  · exact hs
  · exact inv_hardwareReset _
  · exact exec_keeps_inv i _ t (hs.with_host rest) (wellFormed_of_decode hd) hexec
  · exact (hs.with_host rest).raiseFault c

/-! ## The read and write table (R36) -/

/-- Settles O36: a refused command writes none of these registers, and a performed one those its rule names. -/
theorem onlyTabledCommandsWriteRegisters : Obligations.OnlyTabledCommandsWriteRegisters := by
  intro i s t h
  rcases hcheck : stateFault i.op s.fin with _ | c
  · obtain rfl := Host.Outcome.next.inj ((exec_of_stateFault_eq_none i s hcheck).symm.trans h)
    cases i <;> simp [performed, Instr.op]
  · obtain rfl := Host.Outcome.next.inj ((exec_of_stateFault i s c hcheck).symm.trans h)
    simp

/-! ## The reset state and repeated commands -/

/-- Settles O10: the values are fixed, and INIT MD5 loads those of the reset state. -/
theorem resetStateAndInitialValues : Obligations.ResetStateAndInitialValues :=
  ⟨rfl, rfl, rfl, rfl, rfl, rfl, rfl, rfl, rfl, fun s => ⟨_, exec_init .md5 s, rfl, rfl, rfl, rfl, rfl⟩⟩

/-- What a computation starts from is not changed by starting it again. -/
theorem startComputation_after_init (alg : Alg) (s : State) :
    startComputation alg (respond .empty (startComputation alg s)) = respond .empty (startComputation alg s) := rfl

/-- RDSTAT, and RDDIG with FIN = 1, add a response and change nothing else; the response does not depend on those
received before it. -/
theorem exec_read (i : Instr) (s : State) (hi : i = .rdstat ∨ i = .rddig ∧ s.fin = true) (l : List Response) :
    exec i { s with responses := l } = .next { s with responses := l ++ [⟨true, performedData i.op s⟩] } := by
  rcases hi with rfl | ⟨rfl, hfin⟩
  · exact exec_rdstat _
  · exact exec_rddig_of_fin { s with responses := l } hfin

/-- Settles O15: INIT loads fixed values, and a read leaves all that it reads. -/
theorem repeatedReadsAndInitsAgree : Obligations.RepeatedReadsAndInitsAgree := by
  refine ⟨fun alg s t h => ?inits, fun i s t hi h => ?reads⟩
  case inits =>
    obtain rfl := Host.Outcome.next.inj ((exec_init alg s).symm.trans h)
    rw [exec_init, startComputation_after_init]
    rfl
  case reads =>
    obtain rfl := Host.Outcome.next.inj ((exec_read i s hi s.responses).symm.trans h)
    refine ⟨⟨true, performedData i.op s⟩, rfl, rfl, ?_⟩
    rw [exec_read i s hi, List.append_assoc]
    rfl

/-! ## Clean runs (R280) -/

theorem latch_ne_zero (old : BitVec 4) (c : FaultCode) : latch old c ≠ 0 := by
  unfold latch
  split
  · cases c <;> decide
  · assumption

/-- A step takes the host's next action, if there is one (R298). -/
theorem step_host (s t : State) (hstep : step s = .next t) : t.host = s.host.drop 1 := by
  rcases step_cases s t hstep with ⟨hhost, rfl⟩ | ⟨rest, hhost, rfl⟩ | ⟨w, d, rest, i, hhost, _, hexec⟩ |
    ⟨w, d, rest, c, hhost, _, rfl⟩ <;> rw [hhost]
  · rfl
  · rfl
  · exact (exec_response i _ t hexec).1
  · rfl

/-- A step that ends with FAULT = 0, and is no reset, began with FAULT = 0 and answered the action it took with
ack = 1. -/
theorem step_of_clean (s t : State) (hreset : NoReset s.host) (hstep : step s = .next t) (hclean : t.Clean) :
    s.Clean ∧
      ∃ new, t.responses = s.responses ++ new ∧ (∀ r ∈ new, r.ack = true) ∧ new.length = min 1 s.host.length := by
  rcases hhost : s.host with _ | ⟨⟨w, d⟩ | _, rest⟩
  · obtain rfl := Host.Outcome.next.inj ((step_of_idle s hhost).symm.trans hstep)
    exact ⟨hclean, [], by simp, nofun, rfl⟩
  · rcases hfault : faultOf w s.fin with _ | c
    · obtain ⟨i, data, hperf⟩ := step_of_faultOf_eq_none s w d rest hhost hfault
      obtain rfl := Host.Outcome.next.inj (hperf.symm.trans hstep)
      rw [State.Clean, respond_fault, performed_fault] at hclean
      exact ⟨hclean, [⟨true, data⟩], by simp, by simp, by simp⟩
    · obtain rfl := Host.Outcome.next.inj ((step_of_faultOf s w d rest c hhost hfault).symm.trans hstep)
      exact absurd hclean (latch_ne_zero s.fault c)
  · exact absurd (hhost ▸ List.mem_cons_self) hreset

/-- Settles O35, by induction on the number of steps: each step is one that ends with FAULT = 0. -/
theorem cleanRunPerformedEveryCommand : Obligations.CleanRunPerformedEveryCommand := by
  intro n
  induction n with
  | zero =>
    intro s t _ hrun hclean
    obtain rfl := Host.Outcome.next.inj ((run_zero s).symm.trans hrun)
    exact ⟨hclean, [], by simp, nofun, by simp⟩
  | succ n ih =>
    intro s t hreset hrun hclean
    obtain ⟨u, hu⟩ := step_total s
    rw [run_succ n s u hu] at hrun
    have hhost := step_host s u hu
    have hreset' : NoReset u.host := fun hmem => hreset (List.mem_of_mem_drop (hhost ▸ hmem))
    obtain ⟨huclean, later, hlater, hlaterAck, hlaterLen⟩ := ih u t hreset' hrun hclean
    obtain ⟨hsclean, first, hfirst, hfirstAck, hfirstLen⟩ := step_of_clean s u hreset hu huclean
    refine ⟨hsclean, first ++ later, by rw [hlater, hfirst, List.append_assoc], fun r hr => ?_, ?_⟩
    · exact (List.mem_append.mp hr).elim (hfirstAck r) (hlaterAck r)
    · rw [List.length_append, hfirstLen, hlaterLen, hhost, List.length_drop]
      omega

end Sys2Proof.Machine
end

section
/-! Noninterference (R24, R245): two states that hold the same computation go on alike, whatever BUF holds from BUF_USED
on, whatever FAULT is and whatever has been received. -/

namespace Sys2Proof.Machine

/-! ## The same computation, update by update -/

/-- BUF_USED and the bytes below it are the waiting bytes. -/
theorem SameComputation.of_waitingBytes {s t : State} (hh : t.h = s.h) (hlo : t.lo = s.lo) (hhi : t.hi = s.hi)
    (hfin : t.fin = s.fin) (hhost : t.host = s.host) (hwait : waitingBytes t = waitingBytes s) :
    SameComputation s t := by
  have hused : t.bufUsed.toNat = s.bufUsed.toNat := by
    rw [← waitingBytes_length, hwait, waitingBytes_length]
  refine ⟨hh, BitVec.eq_of_toNat_eq hused, hlo, hhi, hfin, hhost, fun a ha => ?_⟩
  have hread (u : State) (hu : a < u.bufUsed.toNat) : (waitingBytes u).getD a 0 = u.buf.readByte a := by
    rw [waitingBytes, read_getD _ _ _ a hu, Nat.zero_add]
  rw [← hread t (hused ▸ ha), hwait, hread s ha]

theorem SameComputation.with_host {s t : State} (h : SameComputation s t) (rest : List HostAction) :
    SameComputation { s with host := rest } { t with host := rest } := by
  obtain ⟨hh, hused, hlo, hhi, hfin, -, hbuf⟩ := h
  exact ⟨hh, hused, hlo, hhi, hfin, rfl, hbuf⟩

theorem SameComputation.respond {s t : State} (h : SameComputation s t) (data data' : RespData) :
    SameComputation (respond data s) (respond data' t) := by
  obtain ⟨hh, hused, hlo, hhi, hfin, hhost, hbuf⟩ := h
  exact ⟨hh, hused, hlo, hhi, hfin, hhost, hbuf⟩

theorem SameComputation.raiseFault {s t : State} (h : SameComputation s t) (c : FaultCode) :
    SameComputation (raiseFault c s) (raiseFault c t) := by
  obtain ⟨hh, hused, hlo, hhi, hfin, hhost, hbuf⟩ := h
  exact ⟨hh, hused, hlo, hhi, hfin, hhost, hbuf⟩

/-- With no byte waiting nothing is asked of BUF. -/
theorem sameComputation_startComputation (alg : Alg) {s t : State} (hhost : t.host = s.host) :
    SameComputation (startComputation alg s) (startComputation alg t) :=
  ⟨rfl, rfl, rfl, rfl, rfl, hhost, fun a ha => absurd ha (Nat.not_lt_zero a)⟩

theorem sameComputation_hardwareReset {s t : State} (hhost : t.host = s.host) :
    SameComputation (hardwareReset s) (hardwareReset t) :=
  ⟨rfl, rfl, rfl, rfl, rfl, hhost, fun _ _ => rfl⟩

/-- Absorb reads BUF through the waiting bytes alone (R24). -/
theorem SameComputation.update {s t : State} (h : SameComputation s t) (n : Nat) (bytes : List Byte)
    (hlen : bytes.length ≤ 64) :
    SameComputation (absorb bytes (counterAdd n s)) (absorb bytes (counterAdd n t)) := by
  refine .of_waitingBytes ?_ ?_ ?_ ?_ ?_ ?_
  · rw [absorb_h bytes _ hlen, absorb_h bytes _ hlen, counterAdd_waitingBytes, counterAdd_waitingBytes, counterAdd_h,
      counterAdd_h, h.waitingBytes_eq, h.h]
  · simp only [absorb_lo, counterAdd_lo, h.lo]
  · simp only [absorb_hi, counterAdd_hi, h.lo, h.hi]
  · simp only [absorb_fin, counterAdd_fin, h.fin]
  · simp only [absorb_host, counterAdd_host, h.host]
  · rw [absorb_waitingBytes bytes _ hlen, absorb_waitingBytes bytes _ hlen, counterAdd_waitingBytes,
      counterAdd_waitingBytes, h.waitingBytes_eq]

/-- FINAL leaves no byte waiting. -/
theorem SameComputation.finalize {s t : State} (h : SameComputation s t) :
    SameComputation (finalize s) (finalize t) :=
  ⟨h.finalize_h_eq, rfl, h.lo, h.hi, rfl, h.host, fun a ha => absurd ha (Nat.not_lt_zero a)⟩

theorem SameComputation.performed {s t : State} (h : SameComputation s t) (i : Instr) :
    SameComputation (performed i s) (performed i t) := by
  cases i with
  | init alg => exact sameComputation_startComputation alg h.host
  | update count data => exact h.update count.toNat (messageBytes count data) (by simp)
  | final => exact h.finalize
  | rdstat | rddig => exact h

/-! ## Responses -/

theorem digestsOf_append (l l' : List Response) : digestsOf (l ++ l') = digestsOf l ++ digestsOf l' :=
  List.filterMap_append ..

/-- A response's data is the same from the same computation, STATUS if FAULT is too (R29). -/
theorem SameComputation.performedData_eq {s t : State} (h : SameComputation s t) (op : Op)
    (hfault : s.fault = t.fault ∨ op ≠ .rdstat) : performedData op t = performedData op s := by
  cases op with
  | init | update | final => rfl
  | rdstat =>
    have hf : s.fault = t.fault := hfault.resolve_right (absurd rfl)
    simp only [performedData, statusWord, State.alg, h.fin, h.h, h.bufUsed, hf]
  | rddig => simp only [performedData, h.h]

/-- A performed command returns the same digest, or none, from the same computation. -/
theorem SameComputation.digestsOf_performed {s t : State} (h : SameComputation s t) (op : Op) :
    digestsOf [⟨true, performedData op t⟩] = digestsOf [⟨true, performedData op s⟩] := by
  rcases eq_or_ne op .rdstat with rfl | hne
  · rfl
  · rw [h.performedData_eq op (.inr hne)]

/-! ## Steps and runs alike -/

/-- From `s` to `s'` and from `t` to `t'` two blocks went alike: they end in the same computation and returned the same
digests; and if FAULT was the same it still is, and the responses were the same. -/
structure WentAlike (s t s' t' : State) : Prop where
  same : SameComputation s' t'
  responses : ∃ new new', s'.responses = s.responses ++ new ∧ t'.responses = t.responses ++ new' ∧
    digestsOf new' = digestsOf new ∧ (s.fault = t.fault → s'.fault = t'.fault ∧ new' = new)

theorem WentAlike.refl {s t : State} (h : SameComputation s t) : WentAlike s t s t :=
  ⟨h, [], [], by simp, by simp, rfl, fun hfault => ⟨hfault, rfl⟩⟩

theorem WentAlike.trans {s t u v s' t' : State} (h : WentAlike s t u v) (h' : WentAlike u v s' t') :
    WentAlike s t s' t' := by
  obtain ⟨-, first, first', hs, ht, hdig, hfault⟩ := h
  obtain ⟨hsame, later, later', hs', ht', hdig', hfault'⟩ := h'
  refine ⟨hsame, first ++ later, first' ++ later', ?_, ?_, ?_, fun heq => ?_⟩
  · rw [hs', hs, List.append_assoc]
  · rw [ht', ht, List.append_assoc]
  · rw [digestsOf_append, digestsOf_append, hdig, hdig']
  · obtain ⟨hmid, rfl⟩ := hfault heq
    obtain ⟨hend, rfl⟩ := hfault' hmid
    exact ⟨hend, rfl⟩

/-- Commands whose state check has the same answer are refused alike or performed alike. -/
theorem exec_wentAlike (i : Instr) {s t : State} (h : SameComputation s t) :
    ∃ s' t', exec i s = .next s' ∧ exec i t = .next t' ∧ WentAlike s t s' t' := by
  have hagree : stateFault i.op t.fin = stateFault i.op s.fin := by rw [h.fin]
  rcases hcheck : stateFault i.op s.fin with _ | c <;> have hcheck' := hagree.trans hcheck
  · refine ⟨_, _, exec_of_stateFault_eq_none i s hcheck, exec_of_stateFault_eq_none i t hcheck', ?_⟩
    refine ⟨(h.performed i).respond _ _, [⟨true, performedData i.op s⟩], [⟨true, performedData i.op t⟩], by simp,
      by simp, h.digestsOf_performed i.op, fun hfault => ⟨by simpa using hfault, ?_⟩⟩
    rw [h.performedData_eq i.op (.inl hfault)]
  · refine ⟨_, _, exec_of_stateFault i s c hcheck, exec_of_stateFault i t c hcheck', ?_⟩
    exact ⟨h.raiseFault c, _, _, rfl, rfl, rfl, fun hfault => ⟨congrArg (latch · c) hfault, rfl⟩⟩

/-- The host's next action takes two blocks on alike: their host is the same. -/
theorem step_wentAlike {s t : State} (h : SameComputation s t) :
    ∃ s' t', step s = .next s' ∧ step t = .next t' ∧ WentAlike s t s' t' := by
  rcases fetch_cases s with ⟨hhost, _⟩ | ⟨rest, hhost, _⟩ | ⟨w, d, rest, i, hhost, hd, _⟩ |
    ⟨w, d, rest, c, hhost, hd, _⟩ <;> have hhost' := h.host.trans hhost
  · exact ⟨s, t, step_of_idle s hhost, step_of_idle t hhost', .refl h⟩
  · refine ⟨_, _, step_of_reset s rest hhost, step_of_reset t rest hhost', ?_⟩
    exact ⟨sameComputation_hardwareReset rfl, [], [], by simp, by simp, rfl, fun _ => ⟨rfl, rfl⟩⟩
  · obtain ⟨s', t', hs, ht, hsame, hresp⟩ := exec_wentAlike i (h.with_host rest)
    exact ⟨s', t', (step_of_decode_ok s w d rest i hhost hd).trans hs,
      (step_of_decode_ok t w d rest i hhost' hd).trans ht, hsame, hresp⟩
  · refine ⟨_, _, step_of_decode_fault s w d rest c hhost hd, step_of_decode_fault t w d rest c hhost' hd, ?_⟩
    exact ⟨(h.with_host rest).raiseFault c, _, _, rfl, rfl, rfl, fun hfault => ⟨congrArg (latch · c) hfault, rfl⟩⟩

/-- A run takes two blocks that hold the same computation on alike. -/
theorem run_wentAlike (n : Nat) {s t : State} (h : SameComputation s t) :
    ∃ s' t', Host.Core.run Sys2Proof.core n s = .next s' ∧ Host.Core.run Sys2Proof.core n t = .next t' ∧
      WentAlike s t s' t' := by
  induction n generalizing s t with
  | zero => exact ⟨s, t, run_zero s, run_zero t, .refl h⟩
  | succ n ih =>
    obtain ⟨u, v, hu, hv, hfirst⟩ := step_wentAlike h
    obtain ⟨s', t', hs, ht, hlater⟩ := ih hfirst.same
    exact ⟨s', t', (run_succ n s u hu).trans hs, (run_succ n t v hv).trans ht, hfirst.trans hlater⟩

/-- Settles O39: one step takes the two states on alike, and FAULT and the responses were equal. -/
theorem staleBufferBytesAreUnobservable : Obligations.StaleBufferBytesAreUnobservable := by
  intro s t h hfault hresp
  obtain ⟨s', t', hs, ht, hsame, new, new', hsnew, htnew, -, hagree⟩ := step_wentAlike h
  obtain ⟨hfault', rfl⟩ := hagree hfault
  exact ⟨s', t', hs, ht, hsame, hfault', by rw [hsnew, htnew, hresp]⟩

/-! ## Reuse after INIT (R245) -/

/-- What INIT leaves, in a block whose host issues it next. -/
theorem step_of_init (alg : Alg) (s : State) (rest : List HostAction)
    (hhost : s.host = commandAction (.init alg) :: rest) :
    step s = .next (respond .empty (startComputation alg { s with host := rest })) :=
  (step_of_commandAction s (.init alg) rest rfl hhost).trans (exec_init alg _)

/-- Two blocks hold the same computation after the same INIT, whatever they did before. -/
theorem sameComputation_init (alg : Alg) (s t : State) (rest : List HostAction) :
    SameComputation (respond .empty (startComputation alg { s with host := rest }))
      (respond .empty (startComputation alg { t with host := rest })) := by
  have hsame : SameComputation (startComputation alg { s with host := rest })
      (startComputation alg { t with host := rest }) := by
    apply sameComputation_startComputation
    rfl
  exact hsame.respond .empty .empty

/-- Settles O16: INIT leaves the same computation in both blocks, and the n further steps take them on alike. -/
theorem reuseAfterInitEqualsFreshBlock : Obligations.ReuseAfterInitEqualsFreshBlock := by
  intro alg s actions n
  obtain ⟨f, t, hf, ht, hend, new, new', hfnew, htnew, hdig, -⟩ :=
    run_wentAlike n (sameComputation_init alg State.reset s actions)
  refine ⟨t, f, digestsOf new, (run_succ n _ _ (step_of_init alg _ actions rfl)).trans ht,
    (run_succ n _ _ (step_of_init alg _ actions rfl)).trans hf, hend, ?_, ?_⟩
  · rw [htnew, digestsOf_append, hdig, respond_responses, digestsOf_append]
    exact congrArg (· ++ digestsOf new) (List.append_nil (digestsOf s.responses))
  · rw [hfnew, digestsOf_append]
    rfl

end Sys2Proof.Machine
end

section
/-! The compression transforms: rotation (R113), the step formulas with their tables written out (R121, R122, R124,
R154, R156), and the transforms as their rounds and the addition of Hin (R125, R157). -/

namespace Sys2Proof.Machine

/-! ## Rotation (R113) -/

/-- For amounts below the word size rotl is the library's rotation. -/
theorem rotl_eq_rotateLeft (x : Word) (n : Nat) (hn : n < 32) : rotl x n = x.rotateLeft n := by
  rw [BitVec.rotateLeft_def, Nat.mod_eq_of_lt hn]
  rfl

/-- Settles O41: the bits that stay below bit 32 are shifted, and the others come round to the low end. -/
theorem rotlMovesEveryBit : Obligations.RotlMovesEveryBit := by
  intro x n j _ hn hj
  rw [rotl_eq_rotateLeft x n (by omega), BitVec.getLsbD_rotateLeft, Nat.mod_eq_of_lt (show n < 32 by omega)]
  rcases Nat.lt_or_ge (j + n) 32 with hstays | hwraps
  · simp [Nat.mod_eq_of_lt hstays, hstays]
  · have hmod : (j + n) % 32 = j + n - 32 := by omega
    have hlow : j + n - 32 < n := by omega
    have hback : 32 - n + (j + n - 32) = j := by omega
    simp [hmod, hlow, hback]

/-! ## MD5 (R121, R122, R124, R125) -/

/-- s[i] is entry i mod 4 of the row of its round (R121). -/
theorem md5Shift_eq_getD : ∀ i < 64,
    md5Shift i =
      ([7, 12, 17, 22, 5, 9, 14, 20, 4, 11, 16, 23, 6, 10, 15, 21] : List Nat).getD (4 * (i / 16) + i % 4) 0 := by
  decide

/-- A further step of MD5 is one step on the variables so far (R124). -/
theorem md5Rounds_succ (n : Nat) (hin : Md5Words) (blk : List Byte) :
    md5Rounds (n + 1) hin blk = md5Step (md5MessageWords blk) (md5Rounds n hin blk) n := by
  simp [md5Rounds, List.range_succ]

/-- Settles O43: the tables' groups are told by their first step number there and by their last one in the model. -/
theorem compressMd5RunsSixtyFourSteps : Obligations.CompressMd5RunsSixtyFourSteps := by
  refine ⟨fun x w i hi => ⟨_, rfl, ?_⟩, rfl, fun hin blk => ⟨rfl, fun n => md5Rounds_succ n hin blk, rfl⟩⟩
  have h16 : i ≤ 15 ↔ i < 16 := by omega
  have h32 : i ≤ 31 ↔ i < 32 := by omega
  have h48 : i ≤ 47 ↔ i < 48 := by omega
  simp only [md5Step, md5Fun_eq_ite i _ _ _ hi, md5Index, md5Shift_eq_getD i hi, h16, h32, h48]

/-! ## SHA-1 (R153, R154, R156, R157) -/

/-- K(t) is the constant of t's group of 20 steps (R154). -/
theorem sha1K_eq_getD : ∀ t < 80,
    sha1K t = ([0x5A827999, 0x6ED9EBA1, 0x8F1BBCDC, 0xCA62C1D6] : List Word).getD (t / 20) 0 := by
  decide

/-- A further step of SHA-1 is one step on the variables so far (R156). -/
theorem sha1Rounds_succ (n : Nat) (hin : Sha1Words) (blk : List Byte) :
    sha1Rounds (n + 1) hin blk = sha1Step (sha1Schedule blk) (sha1Rounds n hin blk) n := by
  simp [sha1Rounds, List.range_succ]

/-- Settles O45: the groups are told by their first step number there and by their last one in the model. -/
theorem compressSha1RunsEightySteps : Obligations.CompressSha1RunsEightySteps := by
  refine ⟨fun sched w t ht => ?_, fun hin blk => ⟨rfl, fun n => sha1Rounds_succ n hin blk, rfl⟩⟩
  have h20 : t ≤ 19 ↔ t < 20 := by omega
  have h40 : t ≤ 39 ↔ t < 40 := by omega
  have h60 : t ≤ 59 ↔ t < 60 := by omega
  simp only [sha1Step, sha1Fun, sha1Ch, sha1Parity, sha1Maj, sha1K_eq_getD t ht, h20, h40, h60]

end Sys2Proof.Machine
end

section
/-! The host's side (R92, R242, R243): the pieces ABSORB sends, HASH's cases, and the bytes of wide elements. -/

namespace Sys2Proof.Machine

/-! ## The pieces of ABSORB (R92) -/

/-- The byte strings ABSORB's UPDATEs carry: the whole blocks, then the rest if there is one (R92). -/
def absorbPieces (bytes : List Byte) : List (List Byte) :=
  (List.range (bytes.length / 64)).map (blockOf bytes) ++
    if bytes.length % 64 ≠ 0 then [bytes.drop (64 * (bytes.length / 64))] else []

theorem absorbActions_eq_map (bytes : List Byte) : absorbActions bytes = (absorbPieces bytes).map updateAction := by
  rw [absorbActions, absorbPieces, List.map_append, List.map_map, apply_ite (List.map updateAction)]
  rfl

theorem absorbPieces_length (bytes : List Byte) :
    (absorbPieces bytes).length = bytes.length / 64 + (if bytes.length % 64 = 0 then 0 else 1) := by
  by_cases hrest : bytes.length % 64 = 0 <;> simp [absorbPieces, hrest]

theorem blockOf_length (bytes : List Byte) (q : Nat) (hq : q < bytes.length / 64) : (blockOf bytes q).length = 64 := by
  rw [blockOf, List.length_take, List.length_drop]
  omega

/-- Each piece has 1 to 64 bytes (R91, R92). -/
theorem length_of_mem_absorbPieces (bytes piece : List Byte) (h : piece ∈ absorbPieces bytes) :
    1 ≤ piece.length ∧ piece.length ≤ 64 := by
  rw [absorbPieces, List.mem_append, List.mem_map] at h
  rcases h with ⟨q, hq, rfl⟩ | hrest
  · rw [blockOf_length bytes q (List.mem_range.mp hq)]
    decide
  · rw [List.mem_ite_nil_right, List.mem_singleton] at hrest
    obtain ⟨hne, rfl⟩ := hrest
    rw [List.length_drop]
    omega

/-- The first pieces are the whole blocks. -/
theorem absorbPieces_getElem? (bytes : List Byte) (j : Nat) (hj : j < bytes.length / 64) :
    (absorbPieces bytes)[j]? = some (blockOf bytes j) := by
  rw [absorbPieces, List.getElem?_append_left (by simpa using hj)]
  simp [hj]

/-- The first n blocks of a byte string are its first 64 * n bytes. -/
theorem flatMap_blockOf (bytes : List Byte) (n : Nat) :
    (List.range n).flatMap (blockOf bytes) = bytes.take (64 * n) := by
  induction n with
  | zero => rfl
  | succ n ih =>
    rw [List.range_succ, List.flatMap_append, ih, List.flatMap_singleton, blockOf, Nat.mul_succ, List.take_add]

/-- Together the pieces are the byte string. -/
theorem flatten_absorbPieces (bytes : List Byte) : (absorbPieces bytes).flatten = bytes := by
  have hblocks := flatMap_blockOf bytes (bytes.length / 64)
  have hrest : (if bytes.length % 64 ≠ 0 then [bytes.drop (64 * (bytes.length / 64))] else []).flatten =
      bytes.drop (64 * (bytes.length / 64)) := by
    split_ifs with h
    · exact List.flatten_singleton
    · exact (List.drop_of_length_le (by omega)).symm
  rw [absorbPieces, List.flatten_append, ← List.flatMap_def, hblocks, hrest, List.take_append_drop]

/-- The operands of the UPDATE that carries a piece (R91). -/
def pieceOperands (piece : List Byte) : BitVec 7 × Lanes := (BitVec.ofNat 7 piece.length, lanesOf piece)

theorem pieceOperands_count (piece : List Byte) (h : piece.length ≤ 64) :
    (pieceOperands piece).1.toNat = piece.length := by
  rw [pieceOperands, BitVec.toNat_ofNat, Nat.mod_eq_of_lt (by omega)]

/-- Settles O46: an UPDATE carries its piece, and the pieces are the blocks and the rest. -/
theorem absorbExpansionCarriesBytes : Obligations.AbsorbExpansionCarriesBytes := by
  intro m
  refine ⟨(absorbPieces m).map pieceOperands, ?actions, ?counts, ?blocks, ?number, ?bytes⟩
  case actions =>
    rw [absorbActions_eq_map, List.map_map]
    rfl
  case counts =>
    simp only [List.forall_mem_map]
    intro piece hpiece
    obtain ⟨hpos, hle⟩ := length_of_mem_absorbPieces m piece hpiece
    rw [pieceOperands_count piece hle]
    exact ⟨hpos, hle⟩
  case blocks =>
    intro j c hc hj
    rw [List.getElem?_map, absorbPieces_getElem? m j hj, Option.map_some, Option.some.injEq] at hc
    rw [← hc, pieceOperands, blockOf_length m j hj]
    rfl
  case number => rw [List.length_map, absorbPieces_length]
  case bytes =>
    rw [List.flatMap_map]
    refine (List.flatMap_congr fun piece hpiece => ?_).trans (List.flatMap_id.trans (flatten_absorbPieces m))
    exact messageBytes_lanesOf piece (length_of_mem_absorbPieces m piece hpiece).2

/-! ## HASH's cases (R242) -/

/-- Settles O47: they are the cases of `hashPlan`. -/
theorem hashPlanFollowsCases : Obligations.HashPlanFollowsCases := by
  refine fun alg => ⟨?_, ?_, rfl, fun m hm => ?_⟩
  · cases alg <;> rfl
  · cases alg <;> rfl
  · obtain ⟨v, vs, rfl⟩ := List.exists_cons_of_ne_nil hm
    rfl

/-! ## Wide elements (R243) -/

@[simp] theorem elementBytes_length (order : Config.ByteOrder) (n : Nat) (v : BitVec (8 * n)) :
    (elementBytes order n v).length = n := by
  cases order <;> simp [elementBytes]

/-- Settles O49: an element's bytes are in the host's order, and the elements follow each other. -/
theorem wideElementsFlattenInNativeOrder : Obligations.WideElementsFlattenInNativeOrder := by
  intro order n units
  refine ⟨?_, fun i j hi hj => ?_⟩
  · simp [flattenWide, List.length_flatMap, Nat.mul_comm]
  · rw [flattenWide, flatMap_getD (elementBytes order n) n (elementBytes_length order n) units 0 i j hi hj]
    cases order with
    | little => exact leBytes_getD n _ j hj
    | big => exact beBytes_getD n _ j hj

end Sys2Proof.Machine
end

section
/-! A whole message (R183, R242): after any UPDATEs the state is a function of the message absorbed so far, so FINAL
compresses the rest of the padded message and HASH's last response is the digest in one piece. -/

namespace Sys2Proof.Machine

/-! ## The whole blocks of a message, and the bytes after them -/

/-- The bytes of a message after its whole blocks. -/
def leftover (m : List Byte) : List Byte := m.drop (64 * (m.length / 64))

@[simp] theorem leftover_length (m : List Byte) : (leftover m).length = m.length % 64 := by
  rw [leftover, List.length_drop]
  omega

/-- Bytes behind a message do not change its whole blocks. -/
theorem blockOf_append (m bytes : List Byte) (q : Nat) (hq : q < m.length / 64) :
    blockOf (m ++ bytes) q = blockOf m q := by
  rw [blockOf, blockOf, List.drop_append_of_le_length (by omega),
    List.take_append_of_le_length (by rw [List.length_drop]; omega)]

/-- The block after a message's whole blocks begins with its leftover. -/
theorem blockOf_append_last (m bytes : List Byte) :
    blockOf (m ++ bytes) (m.length / 64) = (leftover m ++ bytes).take 64 := by
  rw [blockOf, leftover, List.drop_append_of_le_length (by omega)]

/-- The blocks a message shares with a longer one take H to the same words. -/
theorem foldl_blockOf_append (alg : Alg) (m bytes : List Byte) :
    (List.range (m.length / 64)).foldl (fun h q => compress h (blockOf (m ++ bytes) q)) (iv alg) =
      absorbedWords alg m := by
  refine List.foldl_ext _ _ _ fun h q hq => ?_
  rw [blockOf_append m bytes q (List.mem_range.mp hq)]

/-- At most 64 further bytes complete a block with the leftover, or they do not. -/
theorem absorbedWords_append (alg : Alg) (m bytes : List Byte) (hlen : bytes.length ≤ 64) :
    absorbedWords alg (m ++ bytes) =
      if (leftover m ++ bytes).length < 64 then absorbedWords alg m
      else compress (absorbedWords alg m) ((leftover m ++ bytes).take 64) := by
  rw [absorbedWords, List.length_append, List.length_append, leftover_length]
  split
  next hfits =>
    have hblocks : (m.length + bytes.length) / 64 = m.length / 64 := by omega
    rw [hblocks, foldl_blockOf_append]
  next hfills =>
    have hblocks : (m.length + bytes.length) / 64 = m.length / 64 + 1 := by omega
    rw [hblocks, List.range_succ, List.foldl_append, foldl_blockOf_append, List.foldl_cons, List.foldl_nil,
      blockOf_append_last]

/-- What is left over after at most 64 further bytes. -/
theorem leftover_append (m bytes : List Byte) (hlen : bytes.length ≤ 64) :
    leftover (m ++ bytes) =
      if (leftover m ++ bytes).length < 64 then leftover m ++ bytes else (leftover m ++ bytes).drop 64 := by
  have hdrop : (m ++ bytes).drop (64 * (m.length / 64)) = leftover m ++ bytes :=
    List.drop_append_of_le_length (by omega)
  rw [leftover, List.length_append, List.length_append, leftover_length]
  split
  next hfits =>
    have hblocks : (m.length + bytes.length) / 64 = m.length / 64 := by omega
    rw [hblocks, hdrop]
  next hfills =>
    have hblocks : 64 * ((m.length + bytes.length) / 64) = 64 * (m.length / 64) + 64 := by omega
    rw [hblocks, ← List.drop_drop, hdrop]

/-- Bytes that complete the leftover to 64 make it the next block and leave nothing over. -/
theorem absorbedWords_append_block (alg : Alg) (m bytes : List Byte) (hfull : (leftover m ++ bytes).length = 64) :
    absorbedWords alg (m ++ bytes) = compress (absorbedWords alg m) (leftover m ++ bytes) ∧
      leftover (m ++ bytes) = [] := by
  have hlen : bytes.length ≤ 64 := by
    rw [List.length_append] at hfull
    omega
  rw [absorbedWords_append alg m bytes hlen, leftover_append m bytes hlen, if_neg (by omega), if_neg (by omega),
    List.take_of_length_le hfull.le, List.drop_of_length_le hfull.le]
  exact ⟨rfl, rfl⟩

/-- Compressing blocks keeps the algorithm. -/
theorem hashAlg_absorbedWords (alg : Alg) (m : List Byte) : hashAlg (absorbedWords alg m) = alg := by
  unfold absorbedWords
  induction m.length / 64 with
  | zero => exact hashAlg_iv alg
  | succ n ih => rw [List.range_succ, List.foldl_append, List.foldl_cons, List.foldl_nil, hashAlg_compress, ih]

/-! ## The state that holds a message (R183) -/

/-- The state a computation with `alg` has reached when it has absorbed the message `m`. -/
structure HoldsMessage (alg : Alg) (m : List Byte) (s : State) : Prop where
  h : s.h = absorbedWords alg m
  waiting : waitingBytes s = leftover m
  bitLength : s.bitLength = 8 * m.length
  fin : s.fin = false

/-- At its start a computation has absorbed nothing. -/
theorem State.StartOf.holdsMessage {alg : Alg} {s : State} (hs : s.StartOf alg) : HoldsMessage alg [] s := by
  obtain ⟨hh, hused, hlo, hhi, hfin⟩ := hs
  refine ⟨hh, ?_, ?_, hfin⟩
  · rw [waitingBytes, hused]
    rfl
  · rw [State.bitLength, hlo, hhi]
    rfl

theorem HoldsMessage.with_host {alg : Alg} {m : List Byte} {s : State} (hs : HoldsMessage alg m s)
    (rest : List HostAction) : HoldsMessage alg m { s with host := rest } := by
  obtain ⟨hh, hwait, hbits, hfin⟩ := hs
  exact ⟨hh, hwait, hbits, hfin⟩

theorem HoldsMessage.respond {alg : Alg} {m : List Byte} {s : State} (hs : HoldsMessage alg m s) (data : RespData) :
    HoldsMessage alg m (respond data s) := by
  obtain ⟨hh, hwait, hbits, hfin⟩ := hs
  exact ⟨hh, hwait, hbits, hfin⟩

/-- BUF_USED is the number of bytes left over (R25). -/
theorem HoldsMessage.bufUsed {alg : Alg} {m : List Byte} {s : State} (hs : HoldsMessage alg m s) :
    s.bufUsed.toNat = m.length % 64 := by
  rw [← waitingBytes_length, hs.waiting, leftover_length]

/-- Absorb and CounterAdd take the state that holds a message to the one that holds it with the bytes behind. -/
theorem HoldsMessage.update {alg : Alg} {m : List Byte} {s : State} (hs : HoldsMessage alg m s) (bytes : List Byte)
    (hlen : bytes.length ≤ 64) (hlong : (m ++ bytes).length < 2 ^ 61) :
    HoldsMessage alg (m ++ bytes) (absorb bytes (counterAdd bytes.length s)) := by
  rw [List.length_append] at hlong
  refine ⟨?h, ?waiting, ?bitLength, ?fin⟩
  case h =>
    rw [absorb_h bytes _ hlen, counterAdd_waitingBytes, counterAdd_h, hs.waiting, hs.h,
      absorbedWords_append alg m bytes hlen]
  case waiting =>
    rw [absorb_waitingBytes bytes _ hlen, counterAdd_waitingBytes, hs.waiting, leftover_append m bytes hlen]
  case bitLength =>
    rw [absorb_bitLength, counterAdd_bitLength _ s (by omega), hs.bitLength, List.length_append]
    omega
  case fin => rw [absorb_fin, counterAdd_fin, hs.fin]

/-! ## Runs of UPDATEs (R183) -/

/-- An UPDATE the host issues takes the state that holds a message to the one that holds it with its bytes behind. -/
theorem step_of_update {alg : Alg} {m : List Byte} {s : State} (hs : HoldsMessage alg m s) (count : BitVec 7)
    (data : Lanes) (rest : List HostAction) (hcount : count.toNat ≤ 64)
    (hhost : s.host = commandAction (.update count data) :: rest)
    (hlong : (m ++ messageBytes count data).length < 2 ^ 61) :
    ∃ t, step s = .next t ∧ HoldsMessage alg (m ++ messageBytes count data) t ∧ t.fault = s.fault ∧ t.host = rest ∧
      t.responses = s.responses ++ [⟨true, .empty⟩] := by
  have hlen := messageBytes_length_of_le count data hcount
  have hnext := (hs.with_host rest).update (messageBytes count data) (by omega) hlong
  rw [hlen] at hnext
  refine ⟨_, (step_of_commandAction s _ rest (by simpa [Instr.wellFormed] using hcount) hhost).trans
    (exec_update_of_not_fin count data _ hs.fin), hnext.respond .empty, ?_, ?_, ?_⟩ <;> simp

/-- The bytes UPDATEs carry, in order. -/
def carriedBytes (chunks : List (BitVec 7 × Lanes)) : List Byte := chunks.flatMap fun c => messageBytes c.1 c.2

/-- After UPDATEs the state holds the message with all their bytes behind: by induction on the UPDATEs. -/
theorem run_updates (alg : Alg) (chunks : List (BitVec 7 × Lanes)) (rest : List HostAction) (m : List Byte) (s : State)
    (hs : HoldsMessage alg m s) (hcounts : ∀ c ∈ chunks, c.1.toNat ≤ 64)
    (hhost : s.host = (chunks.map fun c => commandAction (.update c.1 c.2)) ++ rest)
    (hlong : (m ++ carriedBytes chunks).length < 2 ^ 61) :
    ∃ t : State, Host.Core.run Sys2Proof.core chunks.length s = .next t ∧
      HoldsMessage alg (m ++ carriedBytes chunks) t ∧ t.fault = s.fault ∧ t.host = rest ∧
      t.responses = s.responses ++ List.replicate chunks.length ⟨true, .empty⟩ := by
  induction chunks generalizing m s with
  | nil => exact ⟨s, run_zero s, by simpa [carriedBytes] using hs, rfl, hhost, by simp⟩
  | cons c chunks ih =>
    have hcarried : m ++ carriedBytes (c :: chunks) = m ++ messageBytes c.1 c.2 ++ carriedBytes chunks := by
      rw [carriedBytes, List.flatMap_cons, List.append_assoc]
      rfl
    rw [hcarried] at hlong ⊢
    obtain ⟨hcount, hcounts⟩ := List.forall_mem_cons.mp hcounts
    obtain ⟨u, hu, hheld, hufault, huhost, huresp⟩ := step_of_update hs c.1 c.2 _ hcount hhost
      (by rw [List.length_append] at hlong; omega)
    obtain ⟨t, ht, hend, htfault, hthost, htresp⟩ := ih _ u hheld hcounts huhost hlong
    refine ⟨t, (run_succ _ s u hu).trans ht, hend, htfault.trans hufault, hthost, ?_⟩
    rw [htresp, huresp, List.append_assoc]
    rfl

/-- Settles O23: a computation starts holding the empty message, and the UPDATEs run to the state that holds theirs. -/
theorem absorbedStateDependsOnMessageOnly : Obligations.AbsorbedStateDependsOnMessageOnly := by
  intro alg s chunks rest hs hcounts hhost m hlong
  obtain ⟨t, ht, hheld, hfault, hrest, hresp⟩ := run_updates alg chunks rest [] s hs.holdsMessage hcounts hhost hlong
  have hused := hheld.bufUsed
  have hwait := hheld.waiting
  rw [waitingBytes, hused] at hwait
  exact ⟨t, ht, hheld.h, hused, hwait, hheld.bitLength, hheld.fin, hfault, hrest, hresp⟩

/-! ## FINAL on a message (R211) -/

/-- The counter FINAL writes is the message's length in bits. -/
theorem HoldsMessage.lengthBits {alg : Alg} {m : List Byte} {s : State} (hs : HoldsMessage alg m s) :
    s.lengthBits = BitVec.ofNat 64 (8 * m.length) := by
  rw [← hs.bitLength, ← lengthBits_toNat, BitVec.ofNat_toNat, BitVec.setWidth_eq]

theorem HoldsMessage.alg_eq {alg : Alg} {m : List Byte} {s : State} (hs : HoldsMessage alg m s) : s.alg = alg := by
  rw [State.alg, hs.h, hashAlg_absorbedWords]

/-- With room for the length the padding goes on from the leftover to the end of its block. -/
theorem paddedMessage_of_le (alg : Alg) (m : List Byte) (hroom : m.length % 64 ≤ 55) :
    paddedMessage alg m =
      m ++ ([0x80] ++ zeroBytes (55 - m.length % 64) ++ lengthField alg (BitVec.ofNat 64 (8 * m.length))) := by
  have hzeros : (119 - m.length % 64) % 64 = 55 - m.length % 64 := by omega
  simp only [paddedMessage, hzeros, List.append_assoc]

/-- Without room for the length the padding ends the leftover's block and makes another. -/
theorem paddedMessage_of_gt (alg : Alg) (m : List Byte) (hfull : 55 < m.length % 64) :
    paddedMessage alg m =
      m ++ ([0x80] ++ zeroBytes (63 - m.length % 64)) ++
        (zeroBytes 56 ++ lengthField alg (BitVec.ofNat 64 (8 * m.length))) := by
  have hzeros : (119 - m.length % 64) % 64 = 63 - m.length % 64 + 56 := by omega
  simp only [paddedMessage, hzeros, zeroBytes_add, List.append_assoc]

/-- FINAL compresses the rest of the padded message: what is left over with the padding is one block or two. -/
theorem HoldsMessage.finalize_h {alg : Alg} {m : List Byte} {s : State} (hs : HoldsMessage alg m s) :
    (finalize s).h = absorbedWords alg (paddedMessage alg m) := by
  have hmod : m.length % 64 < 64 := Nat.mod_lt _ (by decide)
  rw [finalize_h_eq, lastBlock, wordsBeforeLast, hs.bufUsed, hs.waiting, hs.h, hs.alg_eq, hs.lengthBits]
  split
  next hroom =>
    obtain ⟨hlast, -⟩ := absorbedWords_append_block alg m
      ([0x80] ++ zeroBytes (55 - m.length % 64) ++ lengthField alg (BitVec.ofNat 64 (8 * m.length)))
      (by simp; omega)
    rw [paddedMessage_of_le alg m hroom, hlast]
    simp only [List.append_assoc]
  next hfull =>
    obtain ⟨hfirst, hnone⟩ := absorbedWords_append_block alg m ([0x80] ++ zeroBytes (63 - m.length % 64))
      (by simp; omega)
    obtain ⟨hlast, -⟩ := absorbedWords_append_block alg (m ++ ([0x80] ++ zeroBytes (63 - m.length % 64)))
      (zeroBytes 56 ++ lengthField alg (BitVec.ofNat 64 (8 * m.length))) (by rw [hnone]; simp)
    rw [paddedMessage_of_gt alg m (by omega), hlast, hfirst, hnone]
    simp only [List.append_assoc, List.nil_append]

/-! ## HASH (R242) -/

/-- INIT, issued in any state, starts a computation that has absorbed nothing (R240). -/
theorem step_of_init_holdsMessage (alg : Alg) (s : State) (rest : List HostAction)
    (hhost : s.host = commandAction (.init alg) :: rest) :
    ∃ t, step s = .next t ∧ HoldsMessage alg [] t ∧ t.fault = s.fault ∧ t.host = rest ∧
      t.responses = s.responses ++ [⟨true, .empty⟩] :=
  ⟨_, step_of_init alg s rest hhost, (startOf_init alg _).holdsMessage, rfl, rfl, rfl⟩

/-- FINAL, issued in the state that holds a message, compresses the rest of its padding. -/
theorem step_of_final {alg : Alg} {m : List Byte} {s : State} (hs : HoldsMessage alg m s) (rest : List HostAction)
    (hhost : s.host = commandAction .final :: rest) :
    ∃ t, step s = .next t ∧ t.h = absorbedWords alg (paddedMessage alg m) ∧ t.fin = true ∧ t.fault = s.fault ∧
      t.host = rest ∧ t.responses = s.responses ++ [⟨true, .empty⟩] :=
  ⟨_, (step_of_commandAction s .final rest rfl hhost).trans (exec_final_of_not_fin _ hs.fin),
    (hs.with_host rest).finalize_h, rfl, rfl, rfl, rfl⟩

/-- RDDIG, issued with FIN = 1, returns the digest (R215). -/
theorem step_of_rddig {s : State} (hfin : s.fin = true) (rest : List HostAction)
    (hhost : s.host = commandAction .rddig :: rest) :
    ∃ t, step s = .next t ∧ t.fault = s.fault ∧ t.host = rest ∧
      t.responses = s.responses ++ [⟨true, .digest (serialize s.h)⟩] :=
  ⟨_, (step_of_commandAction s .rddig rest rfl hhost).trans (exec_rddig_of_fin { s with host := rest } hfin), rfl, rfl,
    rfl⟩

/-- FINAL and RDDIG, issued in the state that holds a message, return its digest. -/
theorem run_final_rddig {alg : Alg} {m : List Byte} {s : State} (hs : HoldsMessage alg m s) (rest : List HostAction)
    (hhost : s.host = commandAction .final :: commandAction .rddig :: rest) :
    ∃ t : State, Host.Core.run Sys2Proof.core 2 s = .next t ∧ t.fault = s.fault ∧ t.host = rest ∧
      t.responses = s.responses ++ [⟨true, .empty⟩, ⟨true, .digest (digestOf alg m)⟩] := by
  obtain ⟨u, hu, huh, hufin, hufault, huhost, huresp⟩ := step_of_final hs _ hhost
  obtain ⟨t, ht, htfault, hthost, htresp⟩ := step_of_rddig hufin rest huhost
  refine ⟨t, (run_succ 1 s u hu).trans ((run_succ 0 u t ht).trans (run_zero t)), htfault.trans hufault, hthost, ?_⟩
  rw [htresp, huresp, huh, List.append_assoc]
  rfl

/-- Settles O48: INIT starts the computation, ABSORB's UPDATEs carry the message, and FINAL and RDDIG return its
digest. -/
theorem hashCommandsReturnMessageDigest : Obligations.HashCommandsReturnMessageDigest := by
  intro alg m s rest hlong hhost
  obtain ⟨chunks, hactions, hcounts, -, -, hbytes⟩ := absorbExpansionCarriesBytes m
  have hcarried : [] ++ carriedBytes chunks = m := hbytes
  have hnumber : (hashActions alg m).length = chunks.length + 2 + 1 := by
    simp [hashActions, hactions]
  rw [hashActions, hactions, List.cons_append, List.append_assoc] at hhost
  obtain ⟨u, hu, hstart, hufault, huhost, huresp⟩ := step_of_init_holdsMessage alg s _ hhost
  obtain ⟨v, hv, hheld, hvfault, hvhost, hvresp⟩ := run_updates alg chunks _ [] u hstart
    (fun c hc => (hcounts c hc).2) huhost (hcarried ▸ hlong)
  rw [hcarried] at hheld
  obtain ⟨t, ht, htfault, hthost, htresp⟩ := run_final_rddig hheld rest hvhost
  refine ⟨t, _, ?run, hthost, htfault.trans (hvfault.trans hufault), ?responses, rfl⟩
  case run =>
    rw [hnumber, run_succ _ s u hu, run_add _ 2 u v hv step_total]
    exact ht
  case responses =>
    rw [htresp, hvresp, huresp, hnumber, Nat.add_sub_cancel, List.replicate_succ, List.replicate_succ']
    simp

end Sys2Proof.Machine
end
